-- ==== Sys2Proof/Word.lean ====
section
/-! DEFINITION. The value types of OWM (R15, R21): every value is an unsigned number of a stated
width. A single bit (`u1`) is a Bool: `true` is 1, a line read high (R13); `false` is 0. -/

namespace Sys2Proof

/-- `u1`: the bit written, sampled or imposed on the pin (R22, R37, R41). -/
abbrev Bit := Bool

/-- `u8`: a byte of a frame, a command code (R23). -/
abbrev Byte := BitVec 8

/-- `u16`: the raw scratchpad value and the temperature reading (R24). -/
abbrev Half := BitVec 16

/-- `u64`: the serial number (R25). -/
abbrev Wide := BitVec 64

/-- `CW[11:0]`, the host command word (R85). -/
abbrev HostWord := BitVec 12

end Sys2Proof
end

