-- ==== Sys2Proof/Config.lean ====
section
/-! DEFINITION. The configuration record of 00_scope.md section 4 (R8 to R11, R89) and the free values.

The record itself is plain data. A state carries the one it runs under (`State.params`), so that what
is proved of every state is proved for every setting of the parameters. A free value is an opaque
constant: nothing in Lean can evaluate it, so no statement can rest on it. -/

namespace Sys2Proof

/-- The eleven timing parameters of R8, in microseconds, but for `tConvPoll` in milliseconds. -/
structure Timing where
  /-- `T_W1_LOW`: the short hold, which encodes 1. -/
  tW1Low : Nat
  /-- `T_W1_PAD`: the pad after the hold of a 1. -/
  tW1Pad : Nat
  /-- `T_W0_LOW`: the long hold, which encodes 0. -/
  tW0Low : Nat
  /-- `T_W0_PAD`: the pad after the hold of a 0. -/
  tW0Pad : Nat
  /-- `T_R_LOW`: "drives the line low briefly"; may be 0 (R105). -/
  tRLow : Nat
  /-- `T_R_SETTLE`: the settle delay before the sample. -/
  tRSettle : Nat
  /-- `T_R_REST`: the remainder of the read slot. -/
  tRRest : Nat
  /-- `T_GAP`: the relaxation delay after each written bit of a byte. -/
  tGap : Nat
  /-- `T_RST_LOW`: the bus reset pulse. -/
  tRstLow : Nat
  /-- `T_RST_WAIT`: the presence-detect window, waited out without sampling. -/
  tRstWait : Nat
  /-- `T_CONV_POLL`: the delay between two polls of the conversion wait. -/
  tConvPoll : Nat
  deriving DecidableEq, Repr

/-- `T_W_SLOT`, the delay requested in any write slot of a valid setting (R9, R101). -/
def Timing.writeSlot (t : Timing) : Nat := t.tW1Low + t.tW1Pad

/-- `T_R_SLOT`, the delay requested in a read slot (R107, R239). -/
def Timing.readSlot (t : Timing) : Nat := t.tRLow + t.tRSettle + t.tRRest

/-- The five command code parameters of R10. -/
structure CommandCodes where
  skipRom : Byte
  searchRom : Byte
  readRom : Byte
  convertT : Byte
  readScratchpad : Byte
  deriving DecidableEq, Repr

/-- The configuration record: fixed while the machine runs. -/
structure Params where
  timing : Timing
  codes : CommandCodes
  /-- `PIN_SPEED` (R11): carried in the `Cfg` event and used by no rule. DESIGN CHOICE: a natural
  number, the source giving neither its type nor its value (N9, log 1). -/
  pinSpeed : Nat
  /-- `EXPOSE_INTERNAL_OPS` (R89): whether the host port takes the codes `0x1` to `0x9` too. -/
  exposeInternalOps : Bool
  deriving DecidableEq, Repr

/-- The default command codes of R10 (from the sensor family's published protocol, G1). -/
def CommandCodes.default : CommandCodes where
  skipRom := 0xCC
  searchRom := 0xF0
  readRom := 0x33
  convertT := 0x44
  readScratchpad := 0xBE

namespace Config

/-- The durations the source names and does not give (R8, U11, D22): open. -/
opaque freeDelay : Nat → Nat

/-- The value of `PIN_SPEED`, which the source does not give (R11, U13): open. -/
opaque freePinSpeed : Nat

/-- The bit the environment answers with where the state lists no answer (R13, U1): open. -/
opaque freeSample : Nat → Bit

/-- `PIN_OUT` after a reset, "any value until INIT" (R49, U18): open. -/
opaque freePinOut : Nat → Bit

/-- Whether `PIN_DIR` is `IN` after a reset, "any value until INIT" (R49, U18): open. -/
opaque freePinInput : Nat → Bool

/-- What sixteen samples nothing constrains have assembled, for a word placed by `withFetchWord`. -/
opaque freeRaw : Half

end Config

/-- Durations nothing fixes beyond R9: every setting that meets R9's two conditions on the write-slot
parameters has this form. -/
def Timing.unspecified : Timing where
  tW1Low := Config.freeDelay 0
  tW1Pad := Config.freeDelay 1 + 1 + Config.freeDelay 2
  tW0Low := Config.freeDelay 0 + Config.freeDelay 1 + 1
  tW0Pad := Config.freeDelay 2
  tRLow := Config.freeDelay 3
  tRSettle := Config.freeDelay 4
  tRRest := Config.freeDelay 5
  tGap := Config.freeDelay 6
  tRstLow := Config.freeDelay 7
  tRstWait := Config.freeDelay 8
  tConvPoll := Config.freeDelay 9

/-- The setting a machine has at power-on: durations and pin speed open, command codes at their
defaults (R10), `EXPOSE_INTERNAL_OPS` at its default, false (R89). -/
def Params.initial : Params where
  timing := Timing.unspecified
  codes := CommandCodes.default
  pinSpeed := Config.freePinSpeed
  exposeInternalOps := false

end Sys2Proof
end

