-- ==== Sys2Proof/Syntax.lean ====
section
/-! DEFINITION. The operations of OWM (R18, R86), the command codes it sends (R76), and the words that
name them. One constructor of `Instr` per row of spec/opcode_table.json. -/

namespace Sys2Proof

/-- The five members of the source's Command Code enumeration (R10, R76). -/
inductive Command where
  | skipRom | searchRom | readRom | convertT | readScratchpad
  deriving DecidableEq, Repr

/-- The four of them that OWM sends: no operation sends search-ROM (R83, R148). -/
inductive SentCommand where
  | skipRom | readRom | convertT | readScratchpad
  deriving DecidableEq, Repr

/-- A command that is sent, as a member of the enumeration. -/
def SentCommand.toCommand : SentCommand → Command
  | .skipRom => .skipRom
  | .readRom => .readRom
  | .convertT => .convertT
  | .readScratchpad => .readScratchpad

/-- The code of a command under a setting of the parameters (R10). -/
def CommandCodes.code (c : CommandCodes) : Command → Byte
  | .skipRom => c.skipRom
  | .searchRom => c.searchRom
  | .readRom => c.readRom
  | .convertT => c.convertT
  | .readScratchpad => c.readScratchpad

/-- The operations. The first twelve are the `HOSTCW` rows of the table, in its order; the last five
are the `WIRECMD` rows, the command codes (R76): four are sent as a byte frame, search-ROM never is. -/
inductive Instr where
  /-- `INIT` (R150), public. -/
  | init
  /-- `WRITE_BIT b` (R100), internal. -/
  | writeBit (b : Bit)
  /-- `READ_BIT` (R104), internal. -/
  | readBit
  /-- `WRITE_BYTE v` (R120), internal. -/
  | writeByte (v : Byte)
  /-- `READ_BYTE` (R125), internal. -/
  | readByte
  /-- `RESET` (R136), internal: the bus reset pulse, not the hardware reset. -/
  | reset
  /-- `WAIT_CONV` (R138), internal. -/
  | waitConv
  /-- `ACC16` (R165), internal. -/
  | acc16
  /-- `DECODE_TEMP` (R168), internal; its operand is the register `RAW`. -/
  | decodeTemp
  /-- `ACC64` (R175), internal. -/
  | acc64
  /-- `GET_TEMPERATURE` (R141), public. -/
  | getTemperature
  /-- `GET_SERIAL_NUMBER` (R146), public. -/
  | getSerialNumber
  /-- skip-ROM (R76). -/
  | cmdSkipRom
  /-- search-ROM (R76): a code that no operation sends (R83, R148). -/
  | cmdSearchRom
  /-- read-ROM (R76). -/
  | cmdReadRom
  /-- convert-temperature (R76). -/
  | cmdConvertT
  /-- read-scratchpad (R76). -/
  | cmdReadScratchpad
  deriving DecidableEq, Repr

/-- The command code an instruction names, for the five `WIRECMD` rows. -/
def Instr.command? : Instr → Option Command
  | .cmdSkipRom => some .skipRom
  | .cmdSearchRom => some .searchRom
  | .cmdReadRom => some .readRom
  | .cmdConvertT => some .convertT
  | .cmdReadScratchpad => some .readScratchpad
  | .init | .writeBit _ | .readBit | .writeByte _ | .readByte | .reset | .waitConv | .acc16
  | .decodeTemp | .acc64 | .getTemperature | .getSerialNumber => none

/-- The instruction of a command code. -/
def Instr.ofCommand : Command → Instr
  | .skipRom => .cmdSkipRom
  | .searchRom => .cmdSearchRom
  | .readRom => .cmdReadRom
  | .convertT => .cmdConvertT
  | .readScratchpad => .cmdReadScratchpad

/-- Whether the source exposes the operation (R86, column "Public"). -/
def Instr.isPublic : Instr → Bool
  | .init | .getTemperature | .getSerialNumber => true
  | .writeBit _ | .readBit | .writeByte _ | .readByte | .reset | .waitConv | .acc16 | .decodeTemp
  | .acc64 | .cmdSkipRom | .cmdSearchRom | .cmdReadRom | .cmdConvertT | .cmdReadScratchpad => false

/-- A word that names an operation: a 12-bit host word (R85), or an 8-bit command code (R76). The
second form is the model's own at the host port: DESIGN CHOICE, log 8. -/
inductive CommandWord where
  | cw (w : HostWord)
  | code (b : Byte)
  deriving DecidableEq, Repr

end Sys2Proof
end

