-- ==== Sys2Proof/WellFormed.lean ====
section
/-! DEFINITION. What the spec asks of a setting of the parameters (R9, R10) and, through it, of an
instruction. Operand ranges need no check: `b : u1` and `v : u8` are the operands' types. -/

namespace Sys2Proof

/-- R9: the hold for 1 is the short one, and every write slot has the same total. -/
abbrev Timing.WellFormed (t : Timing) : Prop :=
  t.tW1Low < t.tW0Low ∧ t.tW1Low + t.tW1Pad = t.tW0Low + t.tW0Pad

/-- R10: the five command codes are pairwise distinct. -/
abbrev CommandCodes.WellFormed (c : CommandCodes) : Prop :=
  List.Nodup [c.skipRom, c.searchRom, c.readRom, c.convertT, c.readScratchpad]

/-- A setting of the parameters the spec admits. -/
abbrev Params.WellFormed (p : Params) : Prop := p.timing.WellFormed ∧ p.codes.WellFormed

/-- The command that has a code to itself: its byte names it and no other command. -/
abbrev Command.Unambiguous (c : CommandCodes) (k : Command) : Prop :=
  (k ≠ .skipRom → c.code k ≠ c.skipRom) ∧ (k ≠ .searchRom → c.code k ≠ c.searchRom) ∧
  (k ≠ .readRom → c.code k ≠ c.readRom) ∧ (k ≠ .convertT → c.code k ≠ c.convertT) ∧
  (k ≠ .readScratchpad → c.code k ≠ c.readScratchpad)

/-- An instruction is well formed under a setting of the command codes when the word that encodes it
can mean nothing else: always for a host word, and for a command code when R10 holds of it. -/
abbrev Instr.WellFormed (c : CommandCodes) (i : Instr) : Prop :=
  ∀ k ∈ i.command?, Command.Unambiguous c k

end Sys2Proof
end

