-- ==== Sys2Proof/Decode.lean ====
section
/-! DEFINITION. The decoder (R85 to R90, R76) and, after it, the encoder, both from the tables of
30_encoding.md. -/

namespace Sys2Proof

/-- Why a word names no operation. -/
inductive DecodeError where
  /-- An operation code `0xC` to `0xF` (R90). -/
  | reservedCode (op : BitVec 4)
  /-- A byte that is none of the five command codes (R77). -/
  | unknownCommand (b : Byte)
  /-- A sequence of bytes that is no 12-bit word and no single byte (log 9). -/
  | badLayout
  deriving DecidableEq, Repr

/-- `OP`, bits 11 to 8 (R85). -/
def HostWord.op (w : HostWord) : BitVec 4 := w.extractLsb' 8 4

/-- `ARG`, bits 7 to 0 (R85). -/
def HostWord.arg (w : HostWord) : Byte := w.extractLsb' 0 8

/-- A host word (R86). `ARG` is masked out but for `WRITE_BIT` (bit 0) and `WRITE_BYTE` (R87). -/
def decodeHost (w : HostWord) : Except DecodeError Instr :=
  match (HostWord.op w).toNat with
  | 0x0 => .ok .init
  | 0x1 => .ok (.writeBit ((HostWord.arg w).getLsbD 0))
  | 0x2 => .ok .readBit
  | 0x3 => .ok (.writeByte (HostWord.arg w))
  | 0x4 => .ok .readByte
  | 0x5 => .ok .reset
  | 0x6 => .ok .waitConv
  | 0x7 => .ok .acc16
  | 0x8 => .ok .decodeTemp
  | 0x9 => .ok .acc64
  | 0xA => .ok .getTemperature
  | 0xB => .ok .getSerialNumber
  | _ => .error (.reservedCode (HostWord.op w))

/-- A command code byte (R76): "command bytes match the enumerated set exactly" (R77). -/
def decodeWire (c : CommandCodes) (b : Byte) : Except DecodeError Instr :=
  if b = c.skipRom then .ok .cmdSkipRom
  else if b = c.searchRom then .ok .cmdSearchRom
  else if b = c.readRom then .ok .cmdReadRom
  else if b = c.convertT then .ok .cmdConvertT
  else if b = c.readScratchpad then .ok .cmdReadScratchpad
  else .error (.unknownCommand b)

/-- Any word. -/
def decode (c : CommandCodes) : CommandWord → Except DecodeError Instr
  | .cw w => decodeHost w
  | .code b => decodeWire c b

/-- The word in a sequence of bytes: one byte is a command code, two bytes are a host word, its low
byte first and bits 15 to 12 clear. DESIGN CHOICE: the spec gives a host word no bytes (log 9). -/
def wordOfBytes : List Byte → Except DecodeError CommandWord
  | [b] => .ok (.code b)
  | [lo, hi] =>
    if hi.toNat < 16 then .ok (.cw (hi.extractLsb' 0 4 ++ lo)) else .error .badLayout
  | _ => .error .badLayout

/-- Total on any bytes. -/
def decodeBytes (c : CommandCodes) (bs : List Byte) : Except DecodeError Instr :=
  match wordOfBytes bs with
  | .ok w => decode c w
  | .error e => .error e

/-- The bytes of a table row's word of `nbits` bits, lowest first; a row of at most 8 bits is one byte,
a longer one two. -/
def tableBytes (nbits w : Nat) : List Byte :=
  if nbits ≤ 8 then [BitVec.ofNat 8 w]
  else [BitVec.ofNat 8 w, BitVec.ofNat 8 (w / 256)]

/-- What the decoder reads from a row of spec/opcode_table.json, under the default command codes,
which are the ones the table lists (R93). -/
def decodeTableWord (nbits w : Nat) : Option Instr :=
  if w < 2 ^ nbits ∧ nbits ≤ 16 then
    match decodeBytes CommandCodes.default (tableBytes nbits w) with
    | .ok i => some i
    | .error _ => none
  else none

/-- `OP` and `ARG` put together (R85). -/
def hostWord (op : BitVec 4) (arg : Byte) : HostWord := op ++ arg

/-- The word of an instruction (R76, R86), with 0 in every bit the operation ignores. -/
def encode (c : CommandCodes) : Instr → CommandWord
  | .init => .cw (hostWord 0x0 0)
  | .writeBit b => .cw (hostWord 0x1 (if b then 1 else 0))
  | .readBit => .cw (hostWord 0x2 0)
  | .writeByte v => .cw (hostWord 0x3 v)
  | .readByte => .cw (hostWord 0x4 0)
  | .reset => .cw (hostWord 0x5 0)
  | .waitConv => .cw (hostWord 0x6 0)
  | .acc16 => .cw (hostWord 0x7 0)
  | .decodeTemp => .cw (hostWord 0x8 0)
  | .acc64 => .cw (hostWord 0x9 0)
  | .getTemperature => .cw (hostWord 0xA 0)
  | .getSerialNumber => .cw (hostWord 0xB 0)
  | .cmdSkipRom => .code c.skipRom
  | .cmdSearchRom => .code c.searchRom
  | .cmdReadRom => .code c.readRom
  | .cmdConvertT => .code c.convertT
  | .cmdReadScratchpad => .code c.readScratchpad

end Sys2Proof
end

