-- ==== Sys2Proof/Machine/State.lean ====
section
/-! DEFINITION. The state of OWM as plain data (R20), what is outside it that a step reads (the host's
moves, the environment's answers), the reasons a step can stop, and the state after reset (R49). -/

namespace Sys2Proof.Machine

open Sys2Proof

/-- The Sign Indicator's two values (R26). -/
inductive Sign where
  | plus | minus
  deriving DecidableEq, Repr

/-- The one-bit coding of the sign, 0 for `'+'` and 1 for `'-'` (R26, D7). -/
def Sign.code : Sign → Bit
  | .plus => false
  | .minus => true

/-- The character codes of the sign (R26; from general knowledge, G7). -/
def Sign.ascii : Sign → Byte
  | .plus => 0x2B
  | .minus => 0x2D

/-- The direction of the pin (R39): `OUT` or `IN`. -/
inductive PinDir where
  | output | input
  deriving DecidableEq, Repr

/-- The eight primitive events (R12). -/
inductive Event where
  /-- `Cfg(od, sp)`: `pin_configure(open_drain, speed)`. -/
  | cfg (openDrain : Bool) (speed : Nat)
  /-- `Low`: `pin_set_low()`. -/
  | low
  /-- `High`: `pin_set_high()`, which releases the line. -/
  | high
  /-- `DirIn`: `pin_set_direction(input)`. -/
  | dirIn
  /-- `DirOut`: `pin_set_direction(output)`. -/
  | dirOut
  /-- `Smp(b)`: `pin_read_level()`, answered `b`. -/
  | smp (b : Bit)
  /-- `DlyUs(n)`: `delay_microseconds(n)`. -/
  | dlyUs (n : Nat)
  /-- `DlyMs(n)`: `delay_milliseconds(n)`. -/
  | dlyMs (n : Nat)
  deriving DecidableEq, Repr

/-- Which internal operation runs alone while `SEQ = X` (R89). `WAIT_CONV` has two phases there as it
has in `GET_TEMPERATURE` (T3, T3D). DESIGN CHOICE: the spec gives `X` no inner structure (log 7). -/
inductive Lone where
  | writeBit | readBit | writeByte | readByte | reset | waitConv | waitDelay | acc16 | decodeTemp
  | acc64
  /-- A command code run alone (log 8); search-ROM never is (R148). -/
  | command (k : SentCommand)
  deriving DecidableEq, Repr

/-- The values of `SEQ` (R32), and `X` (R89). -/
inductive Seq where
  | idle | i0 | t0 | t1 | t2 | t3 | t3d | t4 | t5 | t6 | t7 | t8 | s0 | s1 | s2
  | x (op : Lone)
  deriving DecidableEq, Repr

/-- What the environment answers once the listed answers are used up. -/
inductive EnvTail where
  /-- Nothing constrains the answer: a free value per sample (R13, U1). -/
  | free
  /-- The same level for ever (R91, a rule for the bits: `env: 0 for ever`). -/
  | forever (b : Bit)
  deriving DecidableEq, Repr

/-- The bits the environment is going to supply (R13, R91). -/
structure Env where
  /-- The answers to the next samples, in order. -/
  given : List Bit
  /-- The answers after those. -/
  after : EnvTail
  deriving DecidableEq, Repr

/-- A move of the host. DESIGN CHOICE: how moves are queued (log 4). -/
inductive HostMove where
  /-- A request made when `BUSY` is false, as R233 asks: while OWM is busy the host waits. -/
  | request (w : CommandWord)
  /-- A request made at once, whether or not OWM is busy (R198). -/
  | requestNow (w : CommandWord)
  /-- No move while OWM takes one step. -/
  | pass
  /-- The hardware reset, asserted at once (R222, R235). -/
  | hardReset
  deriving DecidableEq, Repr

/-- The whole state. The first twelve fields are R20's table, in its order; the last five are the
model's own. A data register that holds no value is `none`: that is the spec's own state of it
(R29, R49, R89), not a value left out (log 2). -/
structure State where
  /-- `SIGN` (R26, R27). -/
  sign : Sign
  /-- `BIT` (R22). -/
  bit : Option Bit
  /-- `BYTE` (R23). -/
  byte : Option Byte
  /-- `RAW` (R24). -/
  raw : Option Half
  /-- `TEMP` (R24). -/
  temp : Option Half
  /-- `SERIAL` (R25). -/
  serial : Option Wide
  /-- `SEQ` (R31, R32). -/
  seq : Seq
  /-- `BITCNT` (R31, R33). -/
  bitcnt : Nat
  /-- `SLOT` (R31, R34). -/
  slot : Nat
  /-- `PIN_OUT` (R37): `false` drives low, `true` releases. -/
  pinOut : Bit
  /-- `PIN_DIR` (R39). -/
  pinDir : PinDir
  /-- `CONFIGURED` (R38). -/
  configured : Bool
  /-- The configuration record the machine runs under (R8 to R11, R89); no step changes it (log 1). -/
  params : Params
  /-- The bits the environment is going to supply (log 5). -/
  env : Env
  /-- The counter free values are applied to (log 5). -/
  draws : Nat
  /-- The moves the host is going to make, the next first (log 4). -/
  host : List HostMove
  /-- The events emitted so far, oldest first (R12, R14). -/
  trace : List Event
  deriving DecidableEq, Repr

/-- The five data registers (R21). -/
inductive DataReg where
  | bit | byte | raw | temp | serial
  deriving DecidableEq, Repr

/-- Why the machine stops with a fault. OWM itself raises no exception (R190): both are stops of the
model in states that no run reaches (log 6). -/
inductive Fault where
  /-- A phase reads a data register that holds no value ("no value; a read is a fault of the claim",
  R204). Raised by the byte frames, the accumulations and `DECODE_TEMP`. Safe. -/
  | noValue (r : DataReg)
  /-- A control position outside the ranges of R33 and R34. Raised by every slot. Safe. -/
  | badPosition
  deriving DecidableEq, Repr

/-- Why a request, or an instruction, is given no meaning (R17, R197). -/
inductive Refusal where
  /-- The instruction has no meaning yet. Raised by `exec` alone. Safe. -/
  | notModelled (mnemonic : String)
  /-- An operation asked of `exec` while another is in progress (R198). Raised by every meaning.
  Safe. -/
  | busy
  /-- An operation other than `INIT` before `INIT` (R225). Raised by every meaning but that of
  `INIT`. Safe. -/
  | notConfigured
  /-- An internal operation while `EXPOSE_INTERNAL_OPS` is false (R89). Raised by the meanings of the
  internal operations. Safe. -/
  | notExposed
  /-- `DECODE_TEMP` alone while `RAW` holds no value (R89). Raised by its meaning. Safe. -/
  | rawHoldsNoValue
  /-- `CMD_SEARCH_ROM`: "There is no operation that sends `CMD_SEARCH_ROM`" (R83, R148, D31). Raised by
  its meaning. Safe. -/
  | neverSent
  /-- A reserved operation code (R90). Raised by the host port. Safe. -/
  | reservedCode (op : BitVec 4)
  /-- A byte that is no command code (R77). Raised by the host port. Safe. -/
  | unknownCommand (b : Byte)
  /-- Bytes that are no word. Raised by no step: a request is a word. Safe. -/
  | badLayout
  /-- `Low` or `High` while `PIN_DIR = IN` (R40, U8). Raised by every slot, in states no run
  reaches. Safe. -/
  | pinWriteWhileInput
  /-- `Smp` while `PIN_DIR = OUT` (R40, U8). Raised by the read slot, in states no run reaches.
  Safe. -/
  | sampleWhileOutput
  deriving DecidableEq, Repr

/-- What every step answers. -/
abbrev Result := Host.Outcome State Fault Refusal

/-- The machine right after a hardware reset (R49, R221). `PIN_OUT` and `PIN_DIR` are unspecified
until `INIT`: free values (log 3). Nothing is listed for the environment to answer and for the host
to do. -/
def State.reset : State where
  sign := .plus
  bit := none
  byte := none
  raw := none
  temp := none
  serial := none
  seq := .idle
  bitcnt := 0
  slot := 0
  pinOut := Config.freePinOut 0
  pinDir := if Config.freePinInput 0 then .input else .output
  configured := false
  params := Params.initial
  env := { given := [], after := .free }
  draws := 1
  host := []
  trace := []

end Sys2Proof.Machine
end

