-- ==== Sys2Proof/Machine/Flags.lean ====
section
/-! DEFINITION. The sign flag and the arithmetic of the temperature decoder (R168 to R173). -/

namespace Sys2Proof.Machine

open Sys2Proof

/-- `raw[15:12]`, the top nibble (R169). -/
def topNibble (raw : Half) : BitVec 4 := raw.extractLsb' 12 4

/-- `SIGN` after `DECODE_TEMP`: the test is on the whole top nibble, not on bit 15 (R27, R169, C5). -/
def signOfRaw (raw : Half) : Sign := if topNibble raw = 0 then .plus else .minus

/-- `v` of R168: the raw value, or its one's complement when the reading is negative (R170, C1). -/
def magnitudeOfRaw (raw : Half) : Half := if topNibble raw = 0 then raw else ~~~raw

/-- `floor(10 v / 16)`, over the naturals, narrowed to the 16 bits of `TEMP` (R171, R173, D23). -/
def scaleToTenths (v : Half) : Half := BitVec.ofNat 16 (v.toNat * 10 / 16)

/-- `TEMP` after `DECODE_TEMP` (R168). -/
def tempOfRaw (raw : Half) : Half := scaleToTenths (magnitudeOfRaw raw)

end Sys2Proof.Machine
end

