-- ==== Sys2Proof/Machine/Operands.lean ====
section
/-! DEFINITION. Operand assembly: a byte taken apart into the bits that are sent (R79), and sampled
bits put together into a value (R80, R177). Least-significant bit first, both ways (R54, R55). -/

namespace Sys2Proof.Machine

open Sys2Proof

/-- `v[i]`, the bit that slot `i` of a byte frame carries (R54, R79). -/
def bitOfByte (v : Byte) (i : Nat) : Bit := v.getLsbD i

/-- `zext_w(b)` (R17, R80): never sign-extended. -/
def zextBit (w : Nat) (b : Bit) : BitVec w := (BitVec.ofBool b).setWidth w

/-- `acc | (zext_w(b) << i)`: the sampled bit goes to position `i`, the shift at the width of the
accumulator (R80, R125, R165, R175). -/
def accumulate {w : Nat} (acc : BitVec w) (i : Nat) (b : Bit) : BitVec w :=
  acc ||| (zextBit w b <<< i)

end Sys2Proof.Machine
end

