-- ==== Sys2Proof/Machine/Ops.lean ====
section
/-! DEFINITION. The shared operations every meaning is written over: emitting an event (R12), sampling
(R13), moving the control position (R31), accepting a request (R88, R197), the hardware reset (R222).

OWM takes no exception and has nothing to return from (R190, R202), so there is no such operation.
The operations are in continuation form: what comes after an event is an argument. -/

namespace Sys2Proof.Machine

open Sys2Proof

/-- `BUSY`: true exactly when `SEQ != IDLE` (R35, R88). -/
def State.busy (s : State) : Bool := decide (s.seq ≠ .idle)

/-- OWM pulls the line low exactly when `PIN_DIR = OUT` and `PIN_OUT = 0`; otherwise the line is
released (R37, R68). -/
def State.pullsLow (s : State) : Bool := decide (s.pinDir = .output ∧ s.pinOut = false)

/-! ## Events -/

/-- R40: `Low` and `High` are emitted only while `PIN_DIR = OUT`, `Smp` only while `PIN_DIR = IN`; for
anything else the spec has no rule, and a model whose states allow it refuses (U8). -/
def pinRule (e : Event) (d : PinDir) : Option Refusal :=
  match e, d with
  | .low, .input => some .pinWriteWhileInput
  | .high, .input => some .pinWriteWhileInput
  | .smp _, .output => some .sampleWhileOutput
  | _, _ => none

/-- The effect of an event on the state of OWM (R12, R37 to R41, R43). -/
def applyEvent (e : Event) (s : State) : State :=
  match e with
  | .cfg _ _ => { s with configured := true, pinDir := .output, pinOut := true }
  | .low => { s with pinOut := false }
  | .high => { s with pinOut := true }
  | .dirIn => { s with pinDir := .input }
  | .dirOut => { s with pinDir := .output }
  | .smp _ => s
  | .dlyUs _ => s
  | .dlyMs _ => s

/-- `e` appended to the trace and its effect applied (R17, `emit`). -/
def recordEvent (e : Event) (s : State) : State :=
  { applyEvent e s with trace := s.trace ++ [e] }

/-- `emit(e)`, then `k`. -/
def emit (e : Event) (k : State → Result) (s : State) : Result :=
  match pinRule e s.pinDir with
  | some r => .refused r
  | none => k (recordEvent e s)

/-! ## Samples -/

/-- The bit the environment answers the next sample with (R13). -/
def nextSample (s : State) : Bit :=
  match s.env.given, s.env.after with
  | b :: _, _ => b
  | [], .forever b => b
  | [], .free => Config.freeSample s.draws

/-- The environment after it has answered one sample. -/
def dropSample (s : State) : State :=
  { s with env := { s.env with given := s.env.given.tail }, draws := s.draws + 1 }

/-- `b <- sample()`, then `k b` (R17). -/
def sample (k : Bit → State → Result) (s : State) : Result :=
  emit (.smp (nextSample s)) (fun s' => k (nextSample s) (dropSample s')) s

/-! ## The control position -/

/-- The next event of the slot (R34). -/
def nextSlot (s : State) : Result := .next { s with slot := s.slot + 1 }

/-- A phase is entered at its first event (R33, R34). -/
def atPhase (p : Seq) (s : State) : State := { s with seq := p, bitcnt := 0, slot := 0 }

/-- `SEQ <- p` (R17, R32). -/
def goto (p : Seq) (s : State) : Result := .next (atPhase p s)

/-- The end of a slot of a frame of `n` bits: the next bit, or `done` after the last (R33). -/
def nextBit (n : Nat) (done : State → Result) (s : State) : Result :=
  if s.bitcnt + 1 < n then .next { s with bitcnt := s.bitcnt + 1, slot := 0 }
  else if s.bitcnt + 1 = n then done { s with bitcnt := 0, slot := 0 }
  else .fault .badPosition

/-- Whether the position is the first event of a frame. -/
def State.atFrameStart (s : State) : Bool := decide (s.bitcnt = 0 ∧ s.slot = 0)

/-! ## Registers -/

/-- The value of a data register, or the fault of reading one that holds none (R204). -/
def readReg {α : Type} (r : DataReg) (v : Option α) (k : α → Result) : Result :=
  match v with
  | some a => k a
  | none => .fault (.noValue r)

/-! ## Requests -/

/-- A public operation other than `INIT` is accepted when it has been configured (R88, R225). -/
def acceptConfigured (start : State → Result) (s : State) : Result :=
  if s.configured then start s else .refused .notConfigured

/-- An internal operation is accepted, moreover, only while `EXPOSE_INTERNAL_OPS` is true (R89). -/
def acceptInternal (start : State → Result) (s : State) : Result :=
  if s.params.exposeInternalOps then acceptConfigured start s else .refused .notExposed

/-! ## The hardware reset -/

/-- The hardware reset (R220 to R222): the state of R49, no event, nothing repaired. During an
operation the pin is left as the last event put it (R222, P5); while idle it is unspecified (R221),
a free value (log 3). The parameters, what the environment and the host are going to do and the trace
so far are no state of OWM and stay. -/
def hardwareReset (s : State) : State :=
  { State.reset with
    pinOut := if s.busy then s.pinOut else Config.freePinOut s.draws
    pinDir := if s.busy then s.pinDir
      else if Config.freePinInput s.draws then .input else .output
    params := s.params
    env := s.env
    draws := s.draws + 1
    host := s.host
    trace := s.trace }

end Sys2Proof.Machine
end

