-- ==== Sys2Proof/Machine/BitTransceiver.lean ====
section
/-! DEFINITION. Bit-level transport (40_bit_transceiver.md): the write slot and the read slot, and the
meanings of `WRITE_BIT` and `READ_BIT`.

An instruction's meaning is its next step from a state: it starts the operation when OWM is idle
(R88), takes the operation's next event when it is the one in progress (R31), and is refused when
another is (R198). -/

namespace Sys2Proof.Machine

open Sys2Proof

/-- The hold of a write slot: short for 1, long for 0 (R71, R103). -/
def holdTime (t : Timing) (b : Bit) : Nat := if b then t.tW1Low else t.tW0Low

/-- The pad of a write slot (R71). -/
def padTime (t : Timing) (b : Bit) : Nat := if b then t.tW1Pad else t.tW0Pad

/-- `WRITE_BIT(b)`, event by event (R71, R100); `done` follows the last. -/
def writeSlot (b : Bit) (done : State → Result) (s : State) : Result :=
  match s.slot with
  | 0 => emit .low nextSlot s
  | 1 => emit (.dlyUs (holdTime s.params.timing b)) nextSlot s
  | 2 => emit .high nextSlot s
  | 3 => emit (.dlyUs (padTime s.params.timing b)) done s
  | _ => .fault .badPosition

/-- `BIT <- b`, in the step that takes the sample. -/
def latchBit (b : Bit) (s : State) : Result := nextSlot { s with bit := some b }

/-- `READ_BIT`, event by event (R72, R104); `done` follows the last. The sampled bit is in `BIT` from
the sample on: R20 has no other element to hold it (log 10). -/
def readSlot (done : State → Result) (s : State) : Result :=
  match s.slot with
  | 0 => emit .low nextSlot s
  | 1 => emit (.dlyUs s.params.timing.tRLow) nextSlot s
  | 2 => emit .high nextSlot s
  | 3 => emit (.dlyUs s.params.timing.tRSettle) nextSlot s
  | 4 => emit .dirIn nextSlot s
  | 5 => sample latchBit s
  | 6 => emit (.dlyUs s.params.timing.tRRest) nextSlot s
  | 7 => emit .dirOut done s
  | _ => .fault .badPosition

/-- `WRITE_BIT b` (R100). The operand goes to `BIT` when the request is accepted (R22, R87). -/
def execWriteBit (b : Bit) (s : State) : Result :=
  match s.seq with
  | .idle => acceptInternal (fun s => goto (.x .writeBit) { s with bit := some b }) s
  | .x .writeBit => readReg .bit s.bit fun b => writeSlot b (goto .idle) s
  | _ => .refused .busy

/-- `READ_BIT` (R104). -/
def execReadBit (s : State) : Result :=
  match s.seq with
  | .idle => acceptInternal (goto (.x .readBit)) s
  | .x .readBit => readSlot (goto .idle) s
  | _ => .refused .busy

end Sys2Proof.Machine
end

