-- ==== Sys2Proof/Machine/ByteCodec.lean ====
section
/-! DEFINITION. Byte-level framing (41_byte_codec.md): the byte frame, the response frame, and the
meanings of `WRITE_BYTE` and `READ_BYTE`. -/

namespace Sys2Proof.Machine

open Sys2Proof

/-- `BIT <- BYTE[i]` before the first event of slot `i` (R120). -/
def loadBit (v : Byte) (s : State) : State :=
  if s.slot = 0 then { s with bit := some (bitOfByte v s.bitcnt) } else s

/-- `WRITE_BYTE`, event by event, the byte in `BYTE` (R74, R120): eight write slots, a gap after
each, the last included (R121). `BYTE` is not consumed. -/
def byteFrame (done : State → Result) (s : State) : Result :=
  readReg .byte s.byte fun v =>
    match s.slot with
    | 4 => emit (.dlyUs s.params.timing.tGap) (nextBit 8 done) s
    | _ => readReg .bit (loadBit v s).bit fun b => writeSlot b nextSlot (loadBit v s)

/-- `WRITE_BYTE(v)` called by another operation: `BYTE <- v` before the first event (R120). -/
def sendByte (v : Byte) (done : State → Result) (s : State) : Result :=
  byteFrame done (if s.atFrameStart then { s with byte := some v } else s)

/-- A response frame of `n` bits, event by event (R75, R80): `clear` before the first event, `n` read
slots back to back, `store i b` at the end of slot `i` with the bit it sampled. -/
def responseFrame (n : Nat) (clear : State → State) (store : Nat → Bit → State → (State → Result) → Result)
    (done : State → Result) (s : State) : Result :=
  readSlot
    (fun s => readReg .bit s.bit fun b => store s.bitcnt b s (nextBit n done))
    (if s.atFrameStart then clear s else s)

/-- `BYTE <- BYTE | (zext_8(b) << i)` (R125). -/
def storeInByte (i : Nat) (b : Bit) (s : State) (k : State → Result) : Result :=
  readReg .byte s.byte fun acc => k { s with byte := some (accumulate acc i b) }

/-- `READ_BYTE`, event by event (R125). -/
def readByteFrame (done : State → Result) (s : State) : Result :=
  responseFrame 8 (fun s => { s with byte := some 0 }) storeInByte done s

/-- `WRITE_BYTE v` (R120). Every value of `v` is sent (R84). -/
def execWriteByte (v : Byte) (s : State) : Result :=
  match s.seq with
  | .idle => acceptInternal (fun s => goto (.x .writeByte) { s with byte := some v }) s
  | .x .writeByte => byteFrame (goto .idle) s
  | _ => .refused .busy

/-- `READ_BYTE` (R124, R125). -/
def execReadByte (s : State) : Result :=
  match s.seq with
  | .idle => acceptInternal (goto (.x .readByte)) s
  | .x .readByte => readByteFrame (goto .idle) s
  | _ => .refused .busy

end Sys2Proof.Machine
end

