-- ==== Sys2Proof/Machine/PayloadDecoder.lean ====
section
/-! DEFINITION. The payload decoder (43_payload_decoder.md): the accumulations and the temperature
interpretation, and the meanings of `ACC16`, `DECODE_TEMP` and `ACC64`. -/

namespace Sys2Proof.Machine

open Sys2Proof

/-- `RAW <- RAW | (zext_16(b) << i)` (R165). -/
def storeInRaw (i : Nat) (b : Bit) (s : State) (k : State → Result) : Result :=
  readReg .raw s.raw fun acc => k { s with raw := some (accumulate acc i b) }

/-- `ACC16`, event by event (R165 to R167). -/
def acc16Frame (done : State → Result) (s : State) : Result :=
  responseFrame 16 (fun s => { s with raw := some 0 }) storeInRaw done s

/-- `SERIAL <- SERIAL | (zext_64(b) << i)`, the shift at 64 bits (R175). -/
def storeInSerial (i : Nat) (b : Bit) (s : State) (k : State → Result) : Result :=
  readReg .serial s.serial fun acc => k { s with serial := some (accumulate acc i b) }

/-- `ACC64`, event by event (R175, R176). -/
def acc64Frame (done : State → Result) (s : State) : Result :=
  responseFrame 64 (fun s => { s with serial := some 0 }) storeInSerial done s

/-- `(TEMP, SIGN) <- DECODE_TEMP(RAW)`: no event; `RAW` is read and not written (R47, R168). -/
def decodeTempNow (done : State → Result) (s : State) : Result :=
  readReg .raw s.raw fun raw =>
    done { s with sign := signOfRaw raw, temp := some (tempOfRaw raw) }

/-- `ACC16` (R165). -/
def execAcc16 (s : State) : Result :=
  match s.seq with
  | .idle => acceptInternal (goto (.x .acc16)) s
  | .x .acc16 => acc16Frame (goto .idle) s
  | _ => .refused .busy

/-- `DECODE_TEMP` (R168); run alone it is refused when `RAW` holds no value (R89). -/
def execDecodeTemp (s : State) : Result :=
  match s.seq with
  | .idle =>
    acceptInternal
      (fun s => if s.raw.isSome then goto (.x .decodeTemp) s else .refused .rawHoldsNoValue) s
  | .x .decodeTemp => decodeTempNow (goto .idle) s
  | _ => .refused .busy

/-- `ACC64` (R175). -/
def execAcc64 (s : State) : Result :=
  match s.seq with
  | .idle => acceptInternal (goto (.x .acc64)) s
  | .x .acc64 => acc64Frame (goto .idle) s
  | _ => .refused .busy

end Sys2Proof.Machine
end

