-- ==== Sys2Proof/Machine/Sequencer.lean ====
section
/-! DEFINITION. The command and reset sequencer (42_sequencer.md): the reset pulse, the conversion
wait, and the meanings of `INIT`, `RESET`, `WAIT_CONV`, `GET_TEMPERATURE` and `GET_SERIAL_NUMBER`. -/

namespace Sys2Proof.Machine

open Sys2Proof

/-- `RESET`, event by event (R73, R136): no sample, no change of direction (R137). -/
def resetPulse (done : State → Result) (s : State) : Result :=
  match s.slot with
  | 0 => emit .low nextSlot s
  | 1 => emit (.dlyUs s.params.timing.tRstLow) nextSlot s
  | 2 => emit .high nextSlot s
  | 3 => emit (.dlyUs s.params.timing.tRstWait) done s
  | _ => .fault .badPosition

/-- One poll of the conversion wait (R138): a read slot, then `exit` when the bit is 1 and the delay
phase when it is 0. No poll is counted and nothing bounds the loop (R139). -/
def pollOnce (delayPhase : Seq) (exit : State → Result) (s : State) : Result :=
  readSlot (fun s => readReg .bit s.bit fun b => if b then exit s else goto delayPhase s) s

/-- The delay between two polls (R138), in milliseconds (R140). -/
def pollDelay (pollPhase : Seq) (s : State) : Result :=
  emit (.dlyMs s.params.timing.tConvPoll) (goto pollPhase) s

/-- `INIT` (R150, R151): accepted in any configuration state. -/
def execInit (s : State) : Result :=
  match s.seq with
  | .idle => goto .i0 s
  | .i0 => emit (.cfg true s.params.pinSpeed) (goto .idle) s
  | _ => .refused .busy

/-- `RESET` (R136). -/
def execReset (s : State) : Result :=
  match s.seq with
  | .idle => acceptInternal (goto (.x .reset)) s
  | .x .reset => resetPulse (goto .idle) s
  | _ => .refused .busy

/-- `WAIT_CONV` (R138). -/
def execWaitConv (s : State) : Result :=
  match s.seq with
  | .idle => acceptInternal (goto (.x .waitConv)) s
  | .x .waitConv => pollOnce (.x .waitDelay) (goto .idle) s
  | .x .waitDelay => pollDelay (.x .waitConv) s
  | _ => .refused .busy

/-- `GET_TEMPERATURE` (R141): the phases of R32. -/
def execGetTemperature (s : State) : Result :=
  match s.seq with
  | .idle => acceptConfigured (goto .t0) s
  | .t0 => resetPulse (goto .t1) s
  | .t1 => sendByte s.params.codes.skipRom (goto .t2) s
  | .t2 => sendByte s.params.codes.convertT (goto .t3) s
  | .t3 => pollOnce .t3d (goto .t4) s
  | .t3d => pollDelay .t3 s
  | .t4 => resetPulse (goto .t5) s
  | .t5 => sendByte s.params.codes.skipRom (goto .t6) s
  | .t6 => sendByte s.params.codes.readScratchpad (goto .t7) s
  | .t7 => acc16Frame (goto .t8) s
  | .t8 => decodeTempNow (goto .idle) s
  | _ => .refused .busy

/-- `GET_SERIAL_NUMBER` (R146): the phases of R32; no skip-ROM byte (R147). -/
def execGetSerialNumber (s : State) : Result :=
  match s.seq with
  | .idle => acceptConfigured (goto .s0) s
  | .s0 => resetPulse (goto .s1) s
  | .s1 => sendByte s.params.codes.readRom (goto .s2) s
  | .s2 => acc64Frame (goto .idle) s
  | _ => .refused .busy

end Sys2Proof.Machine
end

