-- ==== Sys2Proof/Machine/WireCommands.lean ====
section
/-! DEFINITION. The five command codes as instructions (R76): "It is sent as one `WBYTE`". Inside a
public operation the sequencer sends four of them (R141, R146); run alone, one of the four is `WRITE_BYTE`
of its code, an internal operation (R84, R89; DESIGN CHOICE, log 8). The fifth, search-ROM, is never sent
(R76, R83, R148). -/

namespace Sys2Proof.Machine

open Sys2Proof

/-- The sending of a command code, run alone. -/
def sendCommand (k : SentCommand) (s : State) : Result :=
  match s.seq with
  | .idle => acceptInternal (goto (.x (.command k))) s
  | .x (.command k') =>
    if k' = k then sendByte (s.params.codes.code k.toCommand) (goto .idle) s else .refused .busy
  | _ => .refused .busy

/-- skip-ROM. -/
def execCmdSkipRom (s : State) : Result := sendCommand .skipRom s

/-- search-ROM: "There is no operation that sends `CMD_SEARCH_ROM`" (R148; R83, D31), so a request for it
is given no meaning (R5, R197), after the refusals any internal operation meets first (R89, R198, R225). -/
def execCmdSearchRom (s : State) : Result :=
  match s.seq with
  | .idle => acceptInternal (fun _ => .refused .neverSent) s
  | _ => .refused .busy

/-- read-ROM. -/
def execCmdReadRom (s : State) : Result := sendCommand .readRom s

/-- convert-temperature. -/
def execCmdConvertT (s : State) : Result := sendCommand .convertT s

/-- read-scratchpad. -/
def execCmdReadScratchpad (s : State) : Result := sendCommand .readScratchpad s

end Sys2Proof.Machine
end

