-- ==== Sys2Proof/Machine/Dispatch.lean ====
section
/-! DEFINITION. The one dispatch: one arm per constructor of `Instr`. -/

namespace Sys2Proof.Machine

open Sys2Proof

def exec (i : Instr) (s : State) : Host.Outcome State Fault Refusal :=
  match i with
  | .init => Sys2Proof.Machine.execInit s
  | .writeBit b => Sys2Proof.Machine.execWriteBit b s
  | .readBit => Sys2Proof.Machine.execReadBit s
  | .writeByte v => Sys2Proof.Machine.execWriteByte v s
  | .readByte => Sys2Proof.Machine.execReadByte s
  | .reset => Sys2Proof.Machine.execReset s
  | .waitConv => Sys2Proof.Machine.execWaitConv s
  | .acc16 => Sys2Proof.Machine.execAcc16 s
  | .decodeTemp => Sys2Proof.Machine.execDecodeTemp s
  | .acc64 => Sys2Proof.Machine.execAcc64 s
  | .getTemperature => Sys2Proof.Machine.execGetTemperature s
  | .getSerialNumber => Sys2Proof.Machine.execGetSerialNumber s
  | .cmdSkipRom => Sys2Proof.Machine.execCmdSkipRom s
  | .cmdSearchRom => Sys2Proof.Machine.execCmdSearchRom s
  | .cmdReadRom => Sys2Proof.Machine.execCmdReadRom s
  | .cmdConvertT => Sys2Proof.Machine.execCmdConvertT s
  | .cmdReadScratchpad => Sys2Proof.Machine.execCmdReadScratchpad s

end Sys2Proof.Machine
end

