-- ==== Sys2Proof/Machine/HostPort.lean ====
section
/-! DEFINITION. The host port (R85 to R90, R198, R222, R233): what the next step is to do, and what the
host reads. -/

namespace Sys2Proof.Machine

open Sys2Proof

/-! ## What the host reads -/

/-- `RES_TEMP`: the value of `TEMP`; none while busy, when the host reads an unspecified value, and
none before a `GET_TEMPERATURE` has ended (R29, R88, R237). -/
def State.resTemp (s : State) : Option Half := if s.busy then none else s.temp

/-- `RES_SIGN`: the value of `SIGN` (R88, R145, R234). -/
def State.resSign (s : State) : Sign := s.sign

/-- `RES_SERIAL`: the value of `SERIAL`; none while busy (R29, R88, R237). -/
def State.resSerial (s : State) : Option Wide := if s.busy then none else s.serial

/-! ## What the next step is to do -/

/-- The instruction in progress, read off `SEQ` (R32); none while idle. The operand of a lone
`WRITE_BIT` or `WRITE_BYTE` is in its register. -/
def State.current (s : State) : Option Instr :=
  match s.seq with
  | .idle => none
  | .i0 => some .init
  | .t0 | .t1 | .t2 | .t3 | .t3d | .t4 | .t5 | .t6 | .t7 | .t8 => some .getTemperature
  | .s0 | .s1 | .s2 => some .getSerialNumber
  | .x op =>
    match op with
    | .writeBit => some (.writeBit (s.bit.getD false))
    | .readBit => some .readBit
    | .writeByte => some (.writeByte (s.byte.getD 0))
    | .readByte => some .readByte
    | .reset => some .reset
    | .waitConv | .waitDelay => some .waitConv
    | .acc16 => some .acc16
    | .decodeTemp => some .decodeTemp
    | .acc64 => some .acc64
    | .command k => some (Instr.ofCommand k.toCommand)

/-- What a step is to do. -/
inductive Action where
  /-- Run `i` from `s`: the instruction in progress, or one that is requested while idle. -/
  | run (i : Instr) (s : State)
  /-- The state of the machine is now `s`, with no instruction run. -/
  | settle (s : State)
  /-- A request that names no operation. -/
  | reject (r : Refusal)
  deriving DecidableEq, Repr

/-- The refusal of a word that names no operation (R77, R90). -/
def refusalOf : DecodeError → Refusal
  | .reservedCode op => .reservedCode op
  | .unknownCommand b => .unknownCommand b
  | .badLayout => .badLayout

/-- OWM carries on with what it is doing; while idle it waits (R35, R221). -/
def carryOn (s : State) : Action :=
  match s.current with
  | some i => .run i s
  | none => .settle s

/-- A request presented while idle (R88). -/
def presentRequest (w : CommandWord) (s : State) : Action :=
  match decode s.params.codes w with
  | .ok i => .run i s
  | .error e => .reject (refusalOf e)

/-- The host's next move, and what OWM does. A `request` waits while OWM is busy (R233); a
`requestNow` made while busy is refused: it is gone, and the running operation is not disturbed
(R198, R201). The hardware reset wins at any time (R222). -/
def nextAction (s : State) : Action :=
  match s.host with
  | [] => carryOn s
  | .request w :: h => if s.busy then carryOn s else presentRequest w { s with host := h }
  | .requestNow w :: h =>
    if s.busy then carryOn { s with host := h } else presentRequest w { s with host := h }
  | .pass :: h => carryOn { s with host := h }
  | .hardReset :: h => .settle (hardwareReset { s with host := h })

/-! ## Placing a request -/

/-- The word of a table row, as the host port takes it. -/
def requestOfTable (nbits w : Nat) : CommandWord :=
  if nbits ≤ 8 then .code (BitVec.ofNat 8 w) else .cw (BitVec.ofNat 12 w)

/-- The machine as a host leaves it that has done what must be done first (R224): `INIT` has run,
`EXPOSE_INTERNAL_OPS` is on if the operation is internal (R89), and for `DECODE_TEMP` alone `RAW` holds
what an `ACC16` put there, which nothing constrains. -/
def prepareFor (i : Instr) (s : State) : State :=
  { s with
    configured := true
    pinDir := .output
    pinOut := true
    params := { s.params with exposeInternalOps := s.params.exposeInternalOps || !i.isPublic }
    raw := if i = .decodeTemp then some (s.raw.getD Config.freeRaw) else s.raw }

/-- The request for `w` made of an idle machine, its next move. What must be done first is done, but
for `INIT`, which needs nothing done. -/
def placeRequest (w : CommandWord) (s : State) : State :=
  let s := { s with seq := .idle, bitcnt := 0, slot := 0, host := .request w :: s.host }
  match decode s.params.codes w with
  | .ok .init => s
  | .ok i => prepareFor i s
  | .error _ => s

end Sys2Proof.Machine
end

