-- ==== Sys2Proof/Machine/Step.lean ====
section
/-! DEFINITION. One step of the machine: at most one primitive event (R12). -/

namespace Sys2Proof.Machine

open Sys2Proof

/-- One step: the instruction in progress, or the one the host requests, takes its next step. -/
def step (s : State) : Host.Outcome State Fault Refusal :=
  match nextAction s with
  | .run i t => exec i t
  | .settle t => .next t
  | .reject r => .refused r

/-- `s` with the word of a row of spec/opcode_table.json requested, so that the next step runs it
(log 4). -/
def State.withFetchWord (s : State) (nbits w : Nat) : State := placeRequest (requestOfTable nbits w) s

end Sys2Proof.Machine
end

