-- ==== Sys2Proof/Safety.lean ====
section
/-! DEFINITION. The terms claims are made in: the premises of R228, the traces of the operations (R16,
R70 to R75), the value a list of bits spells (R80), the answers a state is going to be given (R13), a
run (R14), and the invariant of every run from reset (R33, R34, R39, R40, R48). None of them is used by
a step: the traces are written here from the formats, and the machine from the pseudocode. -/

namespace Sys2Proof.Machine

open Sys2Proof

/-! ## Premises -/

/-- `Idle` of R228. -/
abbrev State.Idle (s : State) : Prop :=
  s.seq = .idle ∧ s.bitcnt = 0 ∧ s.slot = 0 ∧ s.pinDir = .output ∧ s.pinOut = true

/-- `Configured` and `Idle` of R228: what a public operation other than `INIT` starts from. -/
abbrev State.Ready (s : State) : Prop := s.configured = true ∧ s.Idle

/-- What an internal operation run alone starts from (R89). -/
abbrev State.Bench (s : State) : Prop := s.params.exposeInternalOps = true ∧ s.Ready

/-- The host makes no move while OWM is busy: it is done, or its next move is a request that waits for
`BUSY` to fall (R233). -/
def State.HostWaits (s : State) : Prop :=
  s.host.head? = none ∨ ∃ w, s.host.head? = some (.request w)

/-! ## Runs -/

/-- `n` steps, stopping at the first fault or refusal. -/
def runSteps : Nat → State → Result
  | 0, s => .next s
  | n + 1, s =>
    match step s with
    | .next t => runSteps n t
    | .fault r => .fault r
    | .refused r => .refused r

/-- `n` steps lead from `s` to `t`. -/
def Runs (n : Nat) (s t : State) : Prop := runSteps n s = .next t

/-- The answers the environment gives to the next `n` samples. -/
def answers : Nat → State → List Bit
  | 0, _ => []
  | n + 1, s => nextSample s :: answers n (dropSample s)

/-- The state after the environment has answered `n` samples; nothing else differs. -/
def dropSamples : Nat → State → State
  | 0, s => s
  | n + 1, s => dropSamples n (dropSample s)

/-- The number that bits spell least-significant first: the sum of `b_i * 2^i` (R80). -/
def lsbValue : List Bit → Nat
  | [] => 0
  | b :: bs => b.toNat + 2 * lsbValue bs

/-- The bits of a value, bit 0 first (R79). -/
def lsbBits {w : Nat} (v : BitVec w) : List Bit := (List.range w).map v.getLsbD

/-! ## Traces -/

/-- `WSLOT`, and `tr(WRITE_BIT(b))` (R71, R100). -/
def trWriteBit (t : Timing) : Bit → List Event
  | true => [.low, .dlyUs t.tW1Low, .high, .dlyUs t.tW1Pad]
  | false => [.low, .dlyUs t.tW0Low, .high, .dlyUs t.tW0Pad]

/-- `RSLOT`, and `tr(READ_BIT; [b])` (R72, R104). -/
def trReadBit (t : Timing) (b : Bit) : List Event :=
  [.low, .dlyUs t.tRLow, .high, .dlyUs t.tRSettle, .dirIn, .smp b, .dlyUs t.tRRest, .dirOut]

/-- `RPULSE`, and `tr(RESET)` (R73, R136). -/
def trReset (t : Timing) : List Event :=
  [.low, .dlyUs t.tRstLow, .high, .dlyUs t.tRstWait]

/-- `WBYTE`, and `tr(WRITE_BYTE(v))` (R74, R120). -/
def trWriteByte (t : Timing) (v : Byte) : List Event :=
  (lsbBits v).flatMap fun b => trWriteBit t b ++ [.dlyUs t.tGap]

/-- `RFRAME(n)` with the bits sampled (R75): the trace of `READ_BYTE`, `ACC16` and `ACC64`. -/
def trRead (t : Timing) (bits : List Bit) : List Event := bits.flatMap (trReadBit t)

/-- The wait format with `k` zero polls (R70, R138). -/
def trWait (t : Timing) : Nat → List Event
  | 0 => trReadBit t true
  | k + 1 => trReadBit t false ++ [.dlyMs t.tConvPoll] ++ trWait t k

/-- `tr(GET_TEMPERATURE)` with `k` zero polls and the bits read (R141). -/
def trGetTemperature (p : Params) (k : Nat) (bits : List Bit) : List Event :=
  trReset p.timing ++ trWriteByte p.timing p.codes.skipRom ++ trWriteByte p.timing p.codes.convertT
    ++ trWait p.timing k ++ trReset p.timing ++ trWriteByte p.timing p.codes.skipRom
    ++ trWriteByte p.timing p.codes.readScratchpad ++ trRead p.timing bits

/-- `tr(GET_SERIAL_NUMBER)` with the bits read (R146). -/
def trGetSerialNumber (p : Params) (bits : List Bit) : List Event :=
  trReset p.timing ++ trWriteByte p.timing p.codes.readRom ++ trRead p.timing bits

/-- The microseconds of delay a trace asks for (R239). -/
def requestedUs : List Event → Nat
  | [] => 0
  | .dlyUs n :: es => n + requestedUs es
  | _ :: es => requestedUs es

/-- The milliseconds of delay a trace asks for (R239). -/
def requestedMs : List Event → Nat
  | [] => 0
  | .dlyMs n :: es => n + requestedMs es
  | _ :: es => requestedMs es

/-- The bits sampled in a trace, in order (R16). -/
def samples : List Event → List Bit
  | [] => []
  | .smp b :: es => b :: samples es
  | _ :: es => samples es

/-! ## The invariant -/

/-- Whether the phase runs read slots. -/
def Seq.isRead : Seq → Bool
  | .t3 | .t7 | .s2 => true
  | .x .readBit | .x .readByte | .x .waitConv | .x .acc16 | .x .acc64 => true
  | _ => false

/-- The command code a phase sends (R32, R141, R146). -/
def Seq.sends : Seq → Option SentCommand
  | .t1 | .t5 => some .skipRom
  | .t2 => some .convertT
  | .t6 => some .readScratchpad
  | .s1 => some .readRom
  | .x (.command k) => some k
  | _ => none

/-- Whether the phase runs write slots with gaps. -/
def Seq.isByteFrame (q : Seq) : Bool := q.sends.isSome || q == .x .writeByte

/-- How many bits the frame of a phase has (R33). -/
def Seq.frameBits (q : Seq) : Nat :=
  match q with
  | .t7 | .x .acc16 => 16
  | .s2 | .x .acc64 => 64
  | .x .readByte => 8
  | _ => if q.isByteFrame then 8 else 1

/-- How many positions the slot of a phase has (R34). -/
def Seq.slotEvents (q : Seq) : Nat :=
  match q with
  | .t0 | .t4 | .s0 | .x .reset | .x .writeBit => 4
  | _ => if q.isRead then 8 else if q.isByteFrame then 5 else 1

/-- `BITCNT` and `SLOT` are in the ranges of R33 and R34; while idle both are 0 (R31). -/
def PositionOk (s : State) : Prop := s.bitcnt < s.seq.frameBits ∧ s.slot < s.seq.slotEvents

/-- Only `INIT` runs before the pin is configured (R225). -/
def ConfiguredOk (s : State) : Prop := s.configured = true ∨ s.seq = .idle ∨ s.seq = .i0

/-- Once configured, OWM pulls the line low between the first and the third event of a slot and never
else, and the pin is an input between the fifth and the eighth event of a read slot and never else
(R39, R102, R106). -/
def PinOk (s : State) : Prop :=
  s.configured = true →
    (s.pinOut = false ↔ s.slot = 1 ∨ s.slot = 2) ∧
    (s.pinDir = .input ↔ s.seq.isRead = true ∧ 5 ≤ s.slot)

/-- A register holds a value wherever a phase is going to read it (R48), and the byte being sent is
the phase's own command code, its bit `BYTE[BITCNT]` (R54, R83). -/
def RegsOk (s : State) : Prop :=
  (s.seq = .x .writeBit → s.bit.isSome) ∧
  (s.seq.isRead = true → 6 ≤ s.slot → s.bit.isSome) ∧
  (s.seq = .x .writeByte → s.byte.isSome) ∧
  (s.seq.isByteFrame = true → 1 ≤ s.slot → s.bit = s.byte.map (bitOfByte · s.bitcnt)) ∧
  (∀ k, s.seq.sends = some k → s.atFrameStart = false → s.byte = some (s.params.codes.code k.toCommand)) ∧
  (s.seq = .x .readByte → s.atFrameStart = false → s.byte.isSome) ∧
  (s.seq = .t7 ∨ s.seq = .x .acc16 → s.atFrameStart = false → s.raw.isSome) ∧
  (s.seq = .t8 ∨ s.seq = .x .decodeTemp → s.raw.isSome) ∧
  (s.seq = .s2 ∨ s.seq = .x .acc64 → s.atFrameStart = false → s.serial.isSome)

/-- What a step of a public operation does to `BYTE`: in a phase that sends a command code the register
holds that code from the first event of the frame on, in any other phase it is untouched (R120, R141,
R146); and it never becomes the search-ROM code, the five being distinct (R10, R83). -/
structure ByteFollowsPhase (s t : State) : Prop where
  untouched : s.seq.sends = none → t.byte = s.byte
  sent : ∀ k, s.seq.sends = some k →
    t.byte = some (s.params.codes.code k.toCommand) ∨ s.atFrameStart = false ∧ t.byte = s.byte
  neverSearchRom : s.params.codes.WellFormed → t.byte ≠ s.byte →
    t.byte ≠ some s.params.codes.searchRom

/-- The invariant: it holds at reset and every step keeps it. -/
structure Inv (s : State) : Prop where
  position : PositionOk s
  configured : ConfiguredOk s
  pin : PinOk s
  regs : RegsOk s

end Sys2Proof.Machine
end

