-- ==== Sys2Proof/Laws/State.lean ====
section
/-! SUPPORT. The fields of the named updates of State, one lemma per field per update. -/

namespace Sys2Proof.Machine

open Sys2Proof

/-! ## `atPhase` -/

@[simp] theorem atPhase_sign (p : Seq) (s : State) :
    (atPhase p s).sign = s.sign := rfl
@[simp] theorem atPhase_bit (p : Seq) (s : State) :
    (atPhase p s).bit = s.bit := rfl
@[simp] theorem atPhase_byte (p : Seq) (s : State) :
    (atPhase p s).byte = s.byte := rfl
@[simp] theorem atPhase_raw (p : Seq) (s : State) :
    (atPhase p s).raw = s.raw := rfl
@[simp] theorem atPhase_temp (p : Seq) (s : State) :
    (atPhase p s).temp = s.temp := rfl
@[simp] theorem atPhase_serial (p : Seq) (s : State) :
    (atPhase p s).serial = s.serial := rfl
@[simp] theorem atPhase_seq (p : Seq) (s : State) :
    (atPhase p s).seq = p := rfl
@[simp] theorem atPhase_bitcnt (p : Seq) (s : State) :
    (atPhase p s).bitcnt = 0 := rfl
@[simp] theorem atPhase_slot (p : Seq) (s : State) :
    (atPhase p s).slot = 0 := rfl
@[simp] theorem atPhase_pinOut (p : Seq) (s : State) :
    (atPhase p s).pinOut = s.pinOut := rfl
@[simp] theorem atPhase_pinDir (p : Seq) (s : State) :
    (atPhase p s).pinDir = s.pinDir := rfl
@[simp] theorem atPhase_configured (p : Seq) (s : State) :
    (atPhase p s).configured = s.configured := rfl
@[simp] theorem atPhase_params (p : Seq) (s : State) :
    (atPhase p s).params = s.params := rfl
@[simp] theorem atPhase_env (p : Seq) (s : State) :
    (atPhase p s).env = s.env := rfl
@[simp] theorem atPhase_draws (p : Seq) (s : State) :
    (atPhase p s).draws = s.draws := rfl
@[simp] theorem atPhase_host (p : Seq) (s : State) :
    (atPhase p s).host = s.host := rfl
@[simp] theorem atPhase_trace (p : Seq) (s : State) :
    (atPhase p s).trace = s.trace := rfl

/-! ## `dropSample` -/

@[simp] theorem dropSample_sign (s : State) :
    (dropSample s).sign = s.sign := rfl
@[simp] theorem dropSample_bit (s : State) :
    (dropSample s).bit = s.bit := rfl
@[simp] theorem dropSample_byte (s : State) :
    (dropSample s).byte = s.byte := rfl
@[simp] theorem dropSample_raw (s : State) :
    (dropSample s).raw = s.raw := rfl
@[simp] theorem dropSample_temp (s : State) :
    (dropSample s).temp = s.temp := rfl
@[simp] theorem dropSample_serial (s : State) :
    (dropSample s).serial = s.serial := rfl
@[simp] theorem dropSample_seq (s : State) :
    (dropSample s).seq = s.seq := rfl
@[simp] theorem dropSample_bitcnt (s : State) :
    (dropSample s).bitcnt = s.bitcnt := rfl
@[simp] theorem dropSample_slot (s : State) :
    (dropSample s).slot = s.slot := rfl
@[simp] theorem dropSample_pinOut (s : State) :
    (dropSample s).pinOut = s.pinOut := rfl
@[simp] theorem dropSample_pinDir (s : State) :
    (dropSample s).pinDir = s.pinDir := rfl
@[simp] theorem dropSample_configured (s : State) :
    (dropSample s).configured = s.configured := rfl
@[simp] theorem dropSample_params (s : State) :
    (dropSample s).params = s.params := rfl
@[simp] theorem dropSample_env (s : State) :
    (dropSample s).env = { s.env with given := s.env.given.tail } := rfl
@[simp] theorem dropSample_draws (s : State) :
    (dropSample s).draws = s.draws + 1 := rfl
@[simp] theorem dropSample_host (s : State) :
    (dropSample s).host = s.host := rfl
@[simp] theorem dropSample_trace (s : State) :
    (dropSample s).trace = s.trace := rfl

/-! ## `hardwareReset` -/

@[simp] theorem hardwareReset_sign (s : State) :
    (hardwareReset s).sign = .plus := rfl
@[simp] theorem hardwareReset_bit (s : State) :
    (hardwareReset s).bit = none := rfl
@[simp] theorem hardwareReset_byte (s : State) :
    (hardwareReset s).byte = none := rfl
@[simp] theorem hardwareReset_raw (s : State) :
    (hardwareReset s).raw = none := rfl
@[simp] theorem hardwareReset_temp (s : State) :
    (hardwareReset s).temp = none := rfl
@[simp] theorem hardwareReset_serial (s : State) :
    (hardwareReset s).serial = none := rfl
@[simp] theorem hardwareReset_seq (s : State) :
    (hardwareReset s).seq = .idle := rfl
@[simp] theorem hardwareReset_bitcnt (s : State) :
    (hardwareReset s).bitcnt = 0 := rfl
@[simp] theorem hardwareReset_slot (s : State) :
    (hardwareReset s).slot = 0 := rfl
@[simp] theorem hardwareReset_pinOut (s : State) :
    (hardwareReset s).pinOut = if s.busy then s.pinOut else Config.freePinOut s.draws := rfl
@[simp] theorem hardwareReset_pinDir (s : State) :
    (hardwareReset s).pinDir = if s.busy then s.pinDir else if Config.freePinInput s.draws then .input else .output := rfl
@[simp] theorem hardwareReset_configured (s : State) :
    (hardwareReset s).configured = false := rfl
@[simp] theorem hardwareReset_params (s : State) :
    (hardwareReset s).params = s.params := rfl
@[simp] theorem hardwareReset_env (s : State) :
    (hardwareReset s).env = s.env := rfl
@[simp] theorem hardwareReset_draws (s : State) :
    (hardwareReset s).draws = s.draws + 1 := rfl
@[simp] theorem hardwareReset_host (s : State) :
    (hardwareReset s).host = s.host := rfl
@[simp] theorem hardwareReset_trace (s : State) :
    (hardwareReset s).trace = s.trace := rfl

/-! ## `recordEvent` -/

@[simp] theorem recordEvent_sign (e : Event) (s : State) :
    (recordEvent e s).sign = s.sign := by cases e <;> rfl
@[simp] theorem recordEvent_bit (e : Event) (s : State) :
    (recordEvent e s).bit = s.bit := by cases e <;> rfl
@[simp] theorem recordEvent_byte (e : Event) (s : State) :
    (recordEvent e s).byte = s.byte := by cases e <;> rfl
@[simp] theorem recordEvent_raw (e : Event) (s : State) :
    (recordEvent e s).raw = s.raw := by cases e <;> rfl
@[simp] theorem recordEvent_temp (e : Event) (s : State) :
    (recordEvent e s).temp = s.temp := by cases e <;> rfl
@[simp] theorem recordEvent_serial (e : Event) (s : State) :
    (recordEvent e s).serial = s.serial := by cases e <;> rfl
@[simp] theorem recordEvent_seq (e : Event) (s : State) :
    (recordEvent e s).seq = s.seq := by cases e <;> rfl
@[simp] theorem recordEvent_bitcnt (e : Event) (s : State) :
    (recordEvent e s).bitcnt = s.bitcnt := by cases e <;> rfl
@[simp] theorem recordEvent_slot (e : Event) (s : State) :
    (recordEvent e s).slot = s.slot := by cases e <;> rfl
@[simp] theorem recordEvent_params (e : Event) (s : State) :
    (recordEvent e s).params = s.params := by cases e <;> rfl
@[simp] theorem recordEvent_env (e : Event) (s : State) :
    (recordEvent e s).env = s.env := by cases e <;> rfl
@[simp] theorem recordEvent_draws (e : Event) (s : State) :
    (recordEvent e s).draws = s.draws := by cases e <;> rfl
@[simp] theorem recordEvent_host (e : Event) (s : State) :
    (recordEvent e s).host = s.host := by cases e <;> rfl
@[simp] theorem recordEvent_trace (e : Event) (s : State) :
    (recordEvent e s).trace = s.trace ++ [e] := rfl

/-- `PIN_OUT` after an event (R12, R37, R38). -/
theorem recordEvent_pinOut (e : Event) (s : State) :
    (recordEvent e s).pinOut =
      match e with
      | .cfg _ _ | .high => true
      | .low => false
      | _ => s.pinOut := by cases e <;> rfl

/-- `PIN_DIR` after an event (R12, R38, R39). -/
theorem recordEvent_pinDir (e : Event) (s : State) :
    (recordEvent e s).pinDir =
      match e with
      | .cfg _ _ | .dirOut => .output
      | .dirIn => .input
      | _ => s.pinDir := by cases e <;> rfl

/-- `CONFIGURED` after an event (R12, R38). -/
theorem recordEvent_configured (e : Event) (s : State) :
    (recordEvent e s).configured =
      match e with
      | .cfg _ _ => true
      | _ => s.configured := by cases e <;> rfl

end Sys2Proof.Machine
end

