-- ==== Sys2Proof/Laws/Decoder.lean ====
section
/-! SUPPORT. The temperature decoder over natural numbers (R168 to R173). -/

namespace Sys2Proof.Machine

open Sys2Proof

theorem topNibble_zero_iff (raw : Half) : topNibble raw = 0 ↔ raw.toNat ≤ 0x0FFF := by
  unfold topNibble
  rw [← BitVec.toNat_inj]
  have := raw.isLt
  simp [BitVec.extractLsb'_toNat, Nat.shiftRight_eq_div_pow]
  omega

/-- The sign test as a comparison (R169). -/
theorem signOfRaw_eq (raw : Half) :
    signOfRaw raw = if raw.toNat ≤ 0x0FFF then .plus else .minus := by
  simp only [signOfRaw, topNibble_zero_iff]

/-- The one's complement as a subtraction (R170). -/
theorem magnitudeOfRaw_toNat (raw : Half) :
    (magnitudeOfRaw raw).toNat =
      if raw.toNat ≤ 0x0FFF then raw.toNat else 0xFFFF - raw.toNat := by
  have := raw.isLt
  simp only [magnitudeOfRaw, topNibble_zero_iff]
  split
  · rfl
  · simp [BitVec.toNat_not]

/-- The scaling loses nothing to the width of `TEMP` (R171, R173). -/
theorem tempOfRaw_toNat (raw : Half) :
    (tempOfRaw raw).toNat =
      (if raw.toNat ≤ 0x0FFF then raw.toNat else 0xFFFF - raw.toNat) * 10 / 16 := by
  have := raw.isLt
  simp only [tempOfRaw, scaleToTenths, BitVec.toNat_ofNat, magnitudeOfRaw_toNat]
  split <;> omega

end Sys2Proof.Machine
end

