-- ==== Sys2Proof/Laws/Encoding.lean ====
section
/-! SUPPORT. The two fields of a host word put together are the fields read back (R85), and the codes that
are sent are not search-ROM's (R83). -/

namespace Sys2Proof

theorem hostWord_op (op : BitVec 4) (arg : Byte) : HostWord.op (op ++ arg) = op := by
  apply BitVec.eq_of_getLsbD_eq
  intro i hi
  have h := BitVec.getLsbD_append (x := op) (y := arg) (i := 8 + i)
  simp only [HostWord.op, BitVec.getLsbD_extractLsb', hi, decide_true, Bool.true_and]
  exact h.trans (by simp)

theorem hostWord_arg (op : BitVec 4) (arg : Byte) : HostWord.arg (op ++ arg) = arg := by
  apply BitVec.eq_of_getLsbD_eq
  intro i hi
  have h := BitVec.getLsbD_append (x := op) (y := arg) (i := i)
  simp only [HostWord.arg, BitVec.getLsbD_extractLsb', hi, decide_true, Bool.true_and, Nat.zero_add]
  exact h.trans (by simp [hi])

/-! ## The members of the enumeration, one by one -/

@[simp] theorem toCommand_skipRom : SentCommand.skipRom.toCommand = .skipRom := rfl
@[simp] theorem toCommand_readRom : SentCommand.readRom.toCommand = .readRom := rfl
@[simp] theorem toCommand_convertT : SentCommand.convertT.toCommand = .convertT := rfl
@[simp] theorem toCommand_readScratchpad : SentCommand.readScratchpad.toCommand = .readScratchpad := rfl

@[simp] theorem code_skipRom (c : CommandCodes) : c.code .skipRom = c.skipRom := rfl
@[simp] theorem code_searchRom (c : CommandCodes) : c.code .searchRom = c.searchRom := rfl
@[simp] theorem code_readRom (c : CommandCodes) : c.code .readRom = c.readRom := rfl
@[simp] theorem code_convertT (c : CommandCodes) : c.code .convertT = c.convertT := rfl
@[simp] theorem code_readScratchpad (c : CommandCodes) : c.code .readScratchpad = c.readScratchpad := rfl

@[simp] theorem ofCommand_skipRom : Instr.ofCommand .skipRom = .cmdSkipRom := rfl
@[simp] theorem ofCommand_searchRom : Instr.ofCommand .searchRom = .cmdSearchRom := rfl
@[simp] theorem ofCommand_readRom : Instr.ofCommand .readRom = .cmdReadRom := rfl
@[simp] theorem ofCommand_convertT : Instr.ofCommand .convertT = .cmdConvertT := rfl
@[simp] theorem ofCommand_readScratchpad : Instr.ofCommand .readScratchpad = .cmdReadScratchpad := rfl

/-- No command that OWM sends has the code of search-ROM (R10, R83). -/
theorem sentCode_ne_searchRom {c : CommandCodes} (h : c.WellFormed) (k : SentCommand) :
    c.code k.toCommand ≠ c.searchRom := by
  simp only [CommandCodes.WellFormed, List.nodup_cons, List.mem_cons, not_or] at h
  cases k
  · exact h.1.1
  · exact fun e => h.2.1.1 e.symm
  · exact fun e => h.2.1.2.1 e.symm
  · exact fun e => h.2.1.2.2.1 e.symm

end Sys2Proof
end

