-- ==== Sys2Proof/Laws/Ops.lean ====
section
/-! SUPPORT. What each shared operation can do, said once: where it answers a next state, which. -/

namespace Sys2Proof.Machine

open Sys2Proof

/-! ## Inversion: a next state, and where it comes from -/

theorem emit_next {e : Event} {k : State → Result} {s t : State} (h : emit e k s = .next t) :
    pinRule e s.pinDir = none ∧ k (recordEvent e s) = .next t := by
  unfold emit at h
  split at h
  · cases h
  · exact ⟨‹_›, h⟩

theorem sample_next {k : Bit → State → Result} {s t : State} (h : sample k s = .next t) :
    s.pinDir = .input ∧
      k (nextSample s) (dropSample (recordEvent (.smp (nextSample s)) s)) = .next t := by
  obtain ⟨hp, hk⟩ := emit_next h
  refine ⟨?_, hk⟩
  cases hd : s.pinDir <;> simp_all [pinRule]

theorem nextSlot_next {s t : State} (h : nextSlot s = .next t) :
    t = { s with slot := s.slot + 1 } := by
  cases h; rfl

theorem goto_next {p : Seq} {s t : State} (h : goto p s = .next t) : t = atPhase p s := by
  cases h; rfl

theorem nextBit_next {n : Nat} {done : State → Result} {s t : State}
    (h : nextBit n done s = .next t) :
    (s.bitcnt + 1 < n ∧ t = { s with bitcnt := s.bitcnt + 1, slot := 0 }) ∨
      (s.bitcnt + 1 = n ∧ done { s with bitcnt := 0, slot := 0 } = .next t) := by
  unfold nextBit at h
  split at h
  · cases h; exact .inl ⟨‹_›, rfl⟩
  · split at h
    · exact .inr ⟨‹_›, h⟩
    · cases h

theorem readReg_next {α : Type} {r : DataReg} {v : Option α} {k : α → Result} {t : State}
    (h : readReg r v k = .next t) : ∃ a, v = some a ∧ k a = .next t := by
  cases v with
  | none => cases h
  | some a => exact ⟨a, rfl, h⟩

theorem acceptConfigured_next {start : State → Result} {s t : State}
    (h : acceptConfigured start s = .next t) : s.configured = true ∧ start s = .next t := by
  unfold acceptConfigured at h
  split at h
  · exact ⟨‹_›, h⟩
  · cases h

theorem acceptInternal_next {start : State → Result} {s t : State}
    (h : acceptInternal start s = .next t) :
    s.params.exposeInternalOps = true ∧ s.configured = true ∧ start s = .next t := by
  unfold acceptInternal at h
  split at h
  · exact ⟨‹_›, acceptConfigured_next h⟩
  · cases h

/-! ## Properties of the next state

`Post s P r`: if `r` is a next state `t`, then `P s t`. A relation that every event and every
assignment of an operation keeps is kept by the operation. -/

/-- If `r` answers a next state, it is related to `s`. -/
def Post (P : State → State → Prop) (s : State) (r : Result) : Prop := ∀ t, r = .next t → P s t

theorem post_fault {P : State → State → Prop} {s : State} {f : Fault} : Post P s (.fault f) :=
  fun _ h => by cases h

theorem post_refused {P : State → State → Prop} {s : State} {r : Refusal} :
    Post P s (.refused r) := fun _ h => by cases h

theorem post_next {P : State → State → Prop} {s t : State} (h : P s t) : Post P s (.next t) :=
  fun _ e => by cases e; exact h

theorem post_readReg {P : State → State → Prop} {s : State} {α : Type} {r : DataReg} {v : Option α}
    {k : α → Result} (h : ∀ a, v = some a → Post P s (k a)) : Post P s (readReg r v k) := by
  cases v with
  | none => exact post_fault
  | some a => exact h a rfl

theorem post_acceptConfigured {P : State → State → Prop} {s₀ s : State} {start : State → Result}
    (h : s.configured = true → Post P s₀ (start s)) : Post P s₀ (acceptConfigured start s) := by
  unfold acceptConfigured
  split
  · exact h ‹_›
  · exact post_refused

theorem post_acceptInternal {P : State → State → Prop} {s₀ s : State} {start : State → Result}
    (h : s.params.exposeInternalOps = true → s.configured = true → Post P s₀ (start s)) :
    Post P s₀ (acceptInternal start s) := by
  unfold acceptInternal
  split
  · exact post_acceptConfigured (h ‹_›)
  · exact post_refused

theorem post_emit {P : State → State → Prop} {s₀ s : State} {e : Event} {k : State → Result}
    (h : pinRule e s.pinDir = none → Post P s₀ (k (recordEvent e s))) : Post P s₀ (emit e k s) :=
  fun t ht => h (emit_next ht).1 t (emit_next ht).2

theorem post_sample {P : State → State → Prop} {s₀ s : State} {k : Bit → State → Result}
    (h : s.pinDir = .input →
      Post P s₀ (k (nextSample s) (dropSample (recordEvent (.smp (nextSample s)) s)))) :
    Post P s₀ (sample k s) :=
  fun t ht => h (sample_next ht).1 t (sample_next ht).2

theorem post_nextBit {P : State → State → Prop} {s₀ s : State} {n : Nat} {done : State → Result}
    (h₁ : s.bitcnt + 1 < n → P s₀ { s with bitcnt := s.bitcnt + 1, slot := 0 })
    (h₂ : s.bitcnt + 1 = n → Post P s₀ (done { s with bitcnt := 0, slot := 0 })) :
    Post P s₀ (nextBit n done s) := by
  intro t ht
  rcases nextBit_next ht with ⟨h, rfl⟩ | ⟨h, hd⟩
  · exact h₁ h
  · exact h₂ h t hd

end Sys2Proof.Machine
end

