-- ==== Sys2Proof/Laws/Runs.lean ====
section
/-! SUPPORT. Runs: how they compose, what a step of a busy OWM is, and what the slots and frames of the
operations do, each once. An operation's run is put together from them. -/

namespace Sys2Proof.Machine

open Sys2Proof

/-! ## Composition of runs -/

theorem core_run_succ (n : Nat) (s : State) :
    Host.Core.run core (n + 1) s =
      match step s with
      | .next s' => Host.Core.run core n s'
      | .fault r => .fault r
      | .refused r => .refused r :=
  (Host.Core.run.eq_def core (n + 1) s).trans (by cases h : step s <;> simp [core, h])

/-- The runs claims speak of are those of the host's interface. -/
theorem runSteps_eq_core_run (n : Nat) (s : State) : runSteps n s = Host.Core.run core n s := by
  induction n generalizing s with
  | zero => rfl
  | succ n ih =>
    rw [core_run_succ, runSteps]
    cases step s with
    | next t => exact ih t
    | fault r => rfl
    | refused r => rfl

theorem Runs.zero (s : State) : Runs 0 s s := rfl

theorem Runs.cons {n : Nat} {s t u : State} (h : step s = .next t) (r : Runs n t u) :
    Runs (n + 1) s u := by
  simpa [Runs, runSteps, h] using r

theorem Runs.one {s t : State} (h : step s = .next t) : Runs 1 s t := Runs.cons h (Runs.zero t)

theorem Runs.uncons {n : Nat} {s u : State} (r : Runs (n + 1) s u) :
    ∃ t, step s = .next t ∧ Runs n t u := by
  unfold Runs runSteps at r
  split at r
  · exact ⟨_, ‹_›, r⟩
  · cases r
  · cases r

theorem Runs.eq_of_zero {s t : State} (h : Runs 0 s t) : s = t := Host.Outcome.next.inj h

theorem Runs.trans {m n : Nat} {s t u : State} (h₁ : Runs m s t) (h₂ : Runs n t u) :
    Runs (m + n) s u := by
  induction m generalizing s with
  | zero =>
    rw [h₁.eq_of_zero]
    simpa using h₂
  | succ m ih =>
    obtain ⟨v, hv, r⟩ := h₁.uncons
    have := Runs.cons hv (ih r)
    rwa [Nat.add_right_comm] at this

/-- A run is the function of its start. -/
theorem Runs.unique {n : Nat} {s t u : State} (h₁ : Runs n s t) (h₂ : Runs n s u) : t = u := by
  have : (Host.Outcome.next t : Result) = .next u := h₁.symm.trans h₂
  exact Host.Outcome.next.inj this

theorem Runs.end_eq {n : Nat} {s t u : State} (r : Runs n s t) (h : t = u) : Runs n s u := h ▸ r

theorem Runs.length_eq {m n : Nat} {s t : State} (r : Runs m s t) (h : m = n) : Runs n s t := h ▸ r

/-- Two states with the same next step have the same runs from then on. -/
theorem Runs.of_step_eq {n : Nat} {s s' t : State} (h : step s = step s') (r : Runs (n + 1) s' t) :
    Runs (n + 1) s t := by
  obtain ⟨v, hv, r⟩ := r.uncons
  exact Runs.cons (h.trans hv) r

/-! ## Steps -/

theorem hostWaits_iff (s : State) :
    s.HostWaits ↔ s.host = [] ∨ ∃ w h, s.host = .request w :: h := by
  unfold State.HostWaits
  cases s.host with
  | nil => simp
  | cons m h => cases m <;> simp

theorem current_none_iff (s : State) : s.current = none ↔ s.seq = .idle := by
  unfold State.current
  cases s.seq with
  | x op => cases op <;> simp
  | _ => simp

theorem carryOn_of_current {s : State} {i : Instr} (h : s.current = some i) :
    carryOn s = .run i s := by
  simp [carryOn, h]

theorem busy_of_current {s : State} {i : Instr} (h : s.current = some i) : s.busy = true := by
  have : s.seq ≠ .idle := fun e => by
    rw [(current_none_iff s).2 e] at h
    cases h
  simp [State.busy, this]

/-- A busy OWM whose host waits takes the next step of the instruction in progress. -/
theorem step_of_current {s : State} {i : Instr} (hw : s.HostWaits) (h : s.current = some i) :
    step s = exec i s := by
  have hc := carryOn_of_current h
  have hb := busy_of_current h
  rcases (hostWaits_iff s).1 hw with hh | ⟨w, l, hh⟩ <;> simp [step, nextAction, hh, hb, hc]

/-! ## Samples -/

theorem answers_length (n : Nat) (s : State) : (answers n s).length = n := by
  induction n generalizing s with
  | zero => rfl
  | succ n ih => simp [answers, ih]

theorem dropSamples_succ (n : Nat) (s : State) :
    dropSamples (n + 1) s = dropSample (dropSamples n s) := by
  induction n generalizing s with
  | zero => rfl
  | succ n ih => exact ih (dropSample s)

theorem dropSamples_add (m n : Nat) (s : State) :
    dropSamples (m + n) s = dropSamples n (dropSamples m s) := by
  induction n with
  | zero => rfl
  | succ n ih => rw [← Nat.add_assoc, dropSamples_succ, ih, dropSamples_succ]

theorem answers_succ (n : Nat) (s : State) :
    answers (n + 1) s = answers n s ++ [nextSample (dropSamples n s)] := by
  induction n generalizing s with
  | zero => rfl
  | succ n ih =>
    have h := ih (dropSample s)
    show nextSample s :: answers (n + 1) (dropSample s) = _
    rw [h]
    rfl

theorem answers_add (m n : Nat) (s : State) :
    answers (m + n) s = answers m s ++ answers n (dropSamples m s) := by
  induction m generalizing s with
  | zero => simp [answers, dropSamples]
  | succ m ih =>
    rw [Nat.add_right_comm]
    show nextSample s :: answers (m + n) (dropSample s) = _
    rw [ih]
    rfl

/-- Only the environment and the counter of free values decide the answers. -/
theorem nextSample_congr {s t : State} (he : s.env = t.env) (hd : s.draws = t.draws) :
    nextSample s = nextSample t := by
  simp only [nextSample, he, hd]

/-- Answering samples changes the environment and the counter, and nothing else. -/
theorem dropSamples_eq (n : Nat) (s : State) :
    dropSamples n s =
      { s with env := (dropSamples n s).env, draws := (dropSamples n s).draws } := by
  induction n generalizing s with
  | zero => rfl
  | succ n ih =>
    have h := ih (dropSample s)
    show dropSamples n (dropSample s) = _
    rw [h]
    rfl

theorem dropSamples_congr {s t : State} (he : s.env = t.env) (hd : s.draws = t.draws) (n : Nat) :
    (dropSamples n s).env = (dropSamples n t).env ∧
      (dropSamples n s).draws = (dropSamples n t).draws := by
  induction n generalizing s t with
  | zero => exact ⟨he, hd⟩
  | succ n ih => exact ih (by simp [he]) (by simp [hd])

theorem answers_congr {s t : State} (he : s.env = t.env) (hd : s.draws = t.draws) (n : Nat) :
    answers n s = answers n t := by
  induction n generalizing s t with
  | zero => rfl
  | succ n ih =>
    show nextSample s :: answers n (dropSample s) = nextSample t :: answers n (dropSample t)
    rw [nextSample_congr he hd, ih (s := dropSample s) (t := dropSample t) (by simp [he]) (by simp [hd])]

/-! ## Values -/

theorem lsbValue_append (l : List Bit) (b : Bit) :
    lsbValue (l ++ [b]) = lsbValue l + 2 ^ l.length * b.toNat := by
  induction l with
  | nil => simp [lsbValue]
  | cons a l ih =>
    simp only [List.cons_append, lsbValue, ih, List.length_cons, Nat.pow_succ]
    ring

theorem lsbValue_lt (l : List Bit) : lsbValue l < 2 ^ l.length := by
  induction l with
  | nil => simp [lsbValue]
  | cons a l ih =>
    have : a.toNat ≤ 1 := by cases a <;> simp
    simp only [lsbValue, List.length_cons, Nat.pow_succ]
    omega

/-- Or-ing the next bit into place appends it to the value (R80, R177). -/
theorem accumulate_lsbValue {w : Nat} (l : List Bit) (b : Bit) (h : l.length < w) :
    accumulate (BitVec.ofNat w (lsbValue l)) l.length b = BitVec.ofNat w (lsbValue (l ++ [b])) := by
  have hl := lsbValue_lt l
  have hp : (2 : Nat) ^ l.length < 2 ^ w := Nat.pow_lt_pow_right (by omega) h
  have hpp : (2 : Nat) ^ (l.length + 1) ≤ 2 ^ w := Nat.pow_le_pow_right (by omega) h
  have hw : 1 < (2 : Nat) ^ w := Nat.one_lt_two_pow (by omega)
  apply BitVec.eq_of_toNat_eq
  rw [lsbValue_append]
  cases b
  · simp [accumulate, zextBit, Nat.mod_eq_of_lt (hl.trans hp)]
  · have hadd : lsbValue l + 2 ^ l.length = 2 ^ l.length * 1 ||| lsbValue l := by
      rw [← Nat.two_pow_add_eq_or_of_lt hl]; omega
    have hlt : lsbValue l + 2 ^ l.length < 2 ^ w := by
      rw [Nat.pow_succ] at hpp; omega
    simp only [accumulate, zextBit, BitVec.toNat_or, BitVec.toNat_ofNat, BitVec.toNat_shiftLeft,
      Bool.toNat_true, Nat.mul_one, Nat.mod_eq_of_lt hlt, Nat.mod_eq_of_lt (hl.trans hp)]
    rw [hadd, Nat.mul_one, Nat.or_comm]
    congr 1
    simp [Nat.mod_eq_of_lt hw, Nat.shiftLeft_eq, Nat.mod_eq_of_lt hp]

theorem lsbValue_lsbBits {w : Nat} (v : BitVec w) : lsbValue (lsbBits v) = v.toNat := by
  have key : ∀ n, lsbValue ((List.range n).map v.getLsbD) = v.toNat % 2 ^ n := by
    intro n
    induction n with
    | zero => simp [lsbValue, Nat.mod_one]
    | succ n ih =>
      rw [List.range_succ, List.map_append, List.map_singleton, lsbValue_append, ih,
        List.length_map, List.length_range, Nat.pow_succ, Nat.mod_mul]
      congr 1
      rw [BitVec.getLsbD, Nat.testBit_eq_decide_div_mod_eq]
      rcases Nat.mod_two_eq_zero_or_one (v.toNat / 2 ^ n) with h | h <;> simp [h]
  rw [lsbBits, key, Nat.mod_eq_of_lt v.isLt]

/-! ## Slots

Each lemma takes what the step of the phase is, wherever its slot stands, and gives the run of the whole
slot. -/

/-- A state inside a slot: the position, the pin and the events of the slot so far. -/
def mid (s : State) (k : Nat) (out : Bit) (dir : PinDir) (es : List Event) : State :=
  { s with slot := k, pinOut := out, pinDir := dir, trace := s.trace ++ es }

theorem mid_start {s : State} (hz : s.slot = 0) (hd : s.pinDir = .output) (hp : s.pinOut = true) :
    s = mid s 0 true .output [] := by
  simp [mid, ← hz, ← hd, ← hp]

/-- The reset pulse (R136): three events; `done` follows the fourth. -/
theorem resetPulse_runs {q : Seq} {done : State → Result} {s t : State}
    (hq : ∀ u : State, u.seq = q → u.HostWaits → step u = resetPulse done u)
    (hs : s.seq = q) (hw : s.HostWaits) (hz : s.slot = 0) (hd : s.pinDir = .output)
    (hp : s.pinOut = true)
    (ht : done { s with slot := 3, trace := s.trace ++ trReset s.params.timing } = .next t) :
    Runs 4 s t := by
  have hm : ∀ k out dir es, step (mid s k out dir es) = resetPulse done (mid s k out dir es) :=
    fun _ _ _ _ => hq _ hs hw
  let d1 := Event.dlyUs s.params.timing.tRstLow
  have e0 : step (mid s 0 true .output []) = .next (mid s 1 false .output [.low]) := by
    rw [hm]; simp [resetPulse, mid, emit, pinRule, recordEvent, applyEvent, nextSlot]
  have e1 : step (mid s 1 false .output [.low]) = .next (mid s 2 false .output [.low, d1]) := by
    rw [hm]; simp [resetPulse, mid, emit, pinRule, recordEvent, applyEvent, nextSlot, d1]
  have e2 : step (mid s 2 false .output [.low, d1]) =
      .next (mid s 3 true .output [.low, d1, .high]) := by
    rw [hm]; simp [resetPulse, mid, emit, pinRule, recordEvent, applyEvent, nextSlot]
  have e3 : step (mid s 3 true .output [.low, d1, .high]) = .next t := by
    rw [hm, ← ht]
    simp [resetPulse, mid, emit, pinRule, recordEvent, applyEvent, trReset, d1, hd, hp]
  rw [mid_start hz hd hp]
  exact Runs.cons e0 (Runs.cons e1 (Runs.cons e2 (Runs.one e3)))

/-- A write slot (R100): three events; `done` follows the fourth. -/
theorem writeSlot_runs {q : Seq} {b : Bit} {done : State → Result} {s t : State}
    (hq : ∀ u : State, u.seq = q → u.HostWaits → u.byte = s.byte → u.bit = some b →
      u.slot < 4 → u.bitcnt = s.bitcnt → u.params = s.params → step u = writeSlot b done u)
    (hs : s.seq = q) (hb : s.bit = some b) (hw : s.HostWaits) (hz : s.slot = 0)
    (hd : s.pinDir = .output) (hp : s.pinOut = true)
    (ht : done { s with slot := 3, trace := s.trace ++ trWriteBit s.params.timing b } = .next t) :
    Runs 4 s t := by
  have hm : ∀ k out dir es, k < 4 →
      step (mid s k out dir es) = writeSlot b done (mid s k out dir es) :=
    fun _ _ _ _ hk => hq _ hs hw rfl hb hk rfl rfl
  let d1 := Event.dlyUs (holdTime s.params.timing b)
  have e0 : step (mid s 0 true .output []) = .next (mid s 1 false .output [.low]) := by
    rw [hm _ _ _ _ (by decide)]
    simp [writeSlot, mid, emit, pinRule, recordEvent, applyEvent, nextSlot]
  have e1 : step (mid s 1 false .output [.low]) = .next (mid s 2 false .output [.low, d1]) := by
    rw [hm _ _ _ _ (by decide)]
    simp [writeSlot, mid, emit, pinRule, recordEvent, applyEvent, nextSlot, d1]
  have e2 : step (mid s 2 false .output [.low, d1]) =
      .next (mid s 3 true .output [.low, d1, .high]) := by
    rw [hm _ _ _ _ (by decide)]
    simp [writeSlot, mid, emit, pinRule, recordEvent, applyEvent, nextSlot]
  have e3 : step (mid s 3 true .output [.low, d1, .high]) = .next t := by
    rw [hm _ _ _ _ (by decide), ← ht]
    cases b <;>
      simp [writeSlot, mid, emit, pinRule, recordEvent, applyEvent, trWriteBit, holdTime, padTime,
        d1, hd, hp]
  rw [mid_start hz hd hp]
  exact Runs.cons e0 (Runs.cons e1 (Runs.cons e2 (Runs.one e3)))

/-- A read slot (R104): seven events; `done` follows the eighth. -/
theorem readSlot_runs {q : Seq} {done : State → Result} {s t : State}
    (h0 : step s = readSlot done s)
    (hq : ∀ u : State, u.seq = q → u.HostWaits → 0 < u.slot → step u = readSlot done u)
    (hs : s.seq = q) (hw : s.HostWaits) (hz : s.slot = 0)
    (hd : s.pinDir = .output) (hp : s.pinOut = true)
    (ht : done { dropSample s with
      bit := some (nextSample s), slot := 7
      trace := s.trace ++ trReadBit s.params.timing (nextSample s) } = .next t) :
    Runs 8 s t := by
  let s' : State := { dropSample s with bit := some (nextSample s) }
  have hm : ∀ k out dir es, 0 < k →
      step (mid s k out dir es) = readSlot done (mid s k out dir es) :=
    fun _ _ _ _ hk => hq _ hs hw hk
  have hm' : ∀ k out dir es, 0 < k →
      step (mid s' k out dir es) = readSlot done (mid s' k out dir es) :=
    fun _ _ _ _ hk => hq _ hs hw hk
  let d1 := Event.dlyUs s.params.timing.tRLow
  let d3 := Event.dlyUs s.params.timing.tRSettle
  let e5 := Event.smp (nextSample s)
  let d6 := Event.dlyUs s.params.timing.tRRest
  rw [mid_start hz hd hp] at h0
  have h1 : step (mid s 0 true .output []) = .next (mid s 1 false .output [.low]) := by
    rw [h0]; simp [readSlot, mid, emit, pinRule, recordEvent, applyEvent, nextSlot]
  have h2 : step (mid s 1 false .output [.low]) = .next (mid s 2 false .output [.low, d1]) := by
    rw [hm _ _ _ _ (by decide)]
    simp [readSlot, mid, emit, pinRule, recordEvent, applyEvent, nextSlot, d1]
  have h3 : step (mid s 2 false .output [.low, d1]) =
      .next (mid s 3 true .output [.low, d1, .high]) := by
    rw [hm _ _ _ _ (by decide)]
    simp [readSlot, mid, emit, pinRule, recordEvent, applyEvent, nextSlot]
  have h4 : step (mid s 3 true .output [.low, d1, .high]) =
      .next (mid s 4 true .output [.low, d1, .high, d3]) := by
    rw [hm _ _ _ _ (by decide)]
    simp [readSlot, mid, emit, pinRule, recordEvent, applyEvent, nextSlot, d3]
  have h5 : step (mid s 4 true .output [.low, d1, .high, d3]) =
      .next (mid s 5 true .input [.low, d1, .high, d3, .dirIn]) := by
    rw [hm _ _ _ _ (by decide)]
    simp [readSlot, mid, emit, pinRule, recordEvent, applyEvent, nextSlot]
  have h6 : step (mid s 5 true .input [.low, d1, .high, d3, .dirIn]) =
      .next (mid s' 6 true .input [.low, d1, .high, d3, .dirIn, e5]) := by
    rw [hm _ _ _ _ (by decide)]
    simp [readSlot, sample, emit, pinRule, latchBit, nextSlot, mid, recordEvent, applyEvent,
      dropSample, s', nextSample, e5]
  have h7 : step (mid s' 6 true .input [.low, d1, .high, d3, .dirIn, e5]) =
      .next (mid s' 7 true .input [.low, d1, .high, d3, .dirIn, e5, d6]) := by
    rw [hm' _ _ _ _ (by decide)]
    simp [readSlot, mid, emit, pinRule, recordEvent, applyEvent, nextSlot, d6, s', dropSample]
  have h8 : step (mid s' 7 true .input [.low, d1, .high, d3, .dirIn, e5, d6]) = .next t := by
    rw [hm' _ _ _ _ (by decide), ← ht]
    simp [readSlot, mid, emit, pinRule, recordEvent, applyEvent, trReadBit, d1, d3, d6, e5, s',
      dropSample, hd, hp]
  rw [mid_start hz hd hp]
  exact Runs.cons h1 (Runs.cons h2 (Runs.cons h3 (Runs.cons h4 (Runs.cons h5 (Runs.cons h6
    (Runs.cons h7 (Runs.one h8)))))))

end Sys2Proof.Machine
end

