-- ==== Sys2Proof/Laws/Frames.lean ====
section
/-! SUPPORT. What the byte frame and the response frames do, each once, by induction on their bits. -/

namespace Sys2Proof.Machine

open Sys2Proof

/-! ## The byte frame (R120) -/

/-- The events of the first `n` bits of a byte frame. -/
def bytePrefix (t : Timing) (v : Byte) (n : Nat) : List Event :=
  ((List.range n).map v.getLsbD).flatMap fun b => trWriteBit t b ++ [.dlyUs t.tGap]

theorem bytePrefix_succ (t : Timing) (v : Byte) (n : Nat) :
    bytePrefix t v (n + 1) =
      bytePrefix t v n ++ (trWriteBit t (v.getLsbD n) ++ [.dlyUs t.tGap]) := by
  simp [bytePrefix, List.range_succ]

/-- One bit of a byte frame: a write slot and its gap; `nextBit` follows. -/
theorem byteSlot_runs {q : Seq} {v : Byte} {done : State → Result} {s t : State}
    (hq : ∀ u : State, u.seq = q → u.HostWaits → u.params = s.params → u.byte = some v →
      step u = byteFrame done u)
    (hs : s.seq = q) (hv : s.byte = some v) (hw : s.HostWaits) (hz : s.slot = 0)
    (hd : s.pinDir = .output) (hp : s.pinOut = true)
    (ht : nextBit 8 done { s with
      bit := some (v.getLsbD s.bitcnt), slot := 4
      trace := s.trace ++ (trWriteBit s.params.timing (v.getLsbD s.bitcnt)
        ++ [.dlyUs s.params.timing.tGap]) } = .next t) :
    Runs 5 s t := by
  let b := v.getLsbD s.bitcnt
  let s' : State := { s with bit := some b }
  have hstep : step s = step s' := by
    rw [hq s hs hw rfl hv, hq s' hs hw rfl hv]
    simp [byteFrame, readReg, hv, hz, loadBit, bitOfByte, s']
  have hslot : Runs 4 s' { s with
      bit := some b, slot := 4, trace := s.trace ++ trWriteBit s.params.timing b } := by
    refine writeSlot_runs (q := q) (b := b) (done := nextSlot) (fun u hu huw hub hubit hlt hbc hup => ?_)
      hs rfl hw hz hd hp rfl
    have hub : u.byte = some v := hub.trans hv
    have hload : loadBit v u = u := by
      unfold loadBit
      split
      · have hbc' : u.bitcnt = s.bitcnt := hbc
        have hb' : bitOfByte v u.bitcnt = b := by rw [hbc']; rfl
        rw [hb', ← hubit]
      · rfl
    rw [hq u hu huw hup hub]
    have h4 : u.slot ≠ 4 := by omega
    simp only [byteFrame, hub, readReg, hload, hubit]
  have hgap : step { s with
      bit := some b, slot := 4, trace := s.trace ++ trWriteBit s.params.timing b } = .next t := by
    rw [hq _ (by exact hs) (by exact hw) (by rfl) (by exact hv), ← ht]
    simp [byteFrame, readReg, hv, emit, pinRule, recordEvent, applyEvent, b]
  have h5 := hslot.trans (Runs.one hgap)
  exact Runs.of_step_eq hstep h5

/-- The first `n` bits of a byte frame. -/
theorem byteFrame_bits {q : Seq} {v : Byte} {done : State → Result} {s : State}
    (hq : ∀ u : State, u.seq = q → u.HostWaits → u.params = s.params → u.byte = some v →
      step u = byteFrame done u)
    (hs : s.seq = q) (hv : s.byte = some v) (hw : s.HostWaits) (hz : s.slot = 0) (hb : s.bitcnt = 0)
    (hd : s.pinDir = .output) (hp : s.pinOut = true) (n : Nat) (hn : n + 1 < 8) :
    Runs (5 * (n + 1)) s { s with
      bit := some (v.getLsbD n), bitcnt := n + 1
      trace := s.trace ++ bytePrefix s.params.timing v (n + 1) } := by
  induction n with
  | zero =>
    refine byteSlot_runs hq hs hv hw hz hd hp ?_
    simp [nextBit, hb, bytePrefix, hz]
  | succ n ih =>
    have h := byteSlot_runs (done := done) hq (s := { s with
      bit := some (v.getLsbD n), bitcnt := n + 1
      trace := s.trace ++ bytePrefix s.params.timing v (n + 1) }) (t := { s with
      bit := some (v.getLsbD (n + 1)), bitcnt := n + 1 + 1
      trace := s.trace ++ bytePrefix s.params.timing v (n + 1 + 1) }) hs hv hw hz hd hp (by
        rw [bytePrefix_succ _ _ (n + 1)]
        simp [nextBit, hz]
        omega)
    exact (ih (by omega)).trans h

/-- A whole byte frame: forty events; `done` follows the last gap. -/
theorem byteFrame_runs {q : Seq} {v : Byte} {done : State → Result} {s t : State}
    (hq : ∀ u : State, u.seq = q → u.HostWaits → u.params = s.params → u.byte = some v →
      step u = byteFrame done u)
    (hs : s.seq = q) (hv : s.byte = some v) (hw : s.HostWaits) (hz : s.slot = 0) (hb : s.bitcnt = 0)
    (hd : s.pinDir = .output) (hp : s.pinOut = true)
    (ht : done { s with
      bit := some (v.getLsbD 7), trace := s.trace ++ trWriteByte s.params.timing v } = .next t) :
    Runs 40 s t := by
  have h7 := byteFrame_bits hq hs hv hw hz hb hd hp 6 (by omega)
  refine h7.trans (byteSlot_runs hq hs hv hw hz hd hp ?_)
  rw [← ht]
  have : trWriteByte s.params.timing v = bytePrefix s.params.timing v (7 + 1) := rfl
  rw [this, bytePrefix_succ _ _ 7]
  simp [nextBit, hz, hb]

/-- A byte sent by another operation (R120): `BYTE` is loaded first. -/
theorem sendByte_runs {q : Seq} {v : Byte} {done : State → Result} {s t : State}
    (hq : ∀ u : State, u.seq = q → u.HostWaits → u.params = s.params →
      step u = sendByte v done u)
    (hs : s.seq = q) (hw : s.HostWaits) (hz : s.slot = 0) (hb : s.bitcnt = 0)
    (hd : s.pinDir = .output) (hp : s.pinOut = true)
    (ht : done { s with
      byte := some v, bit := some (v.getLsbD 7)
      trace := s.trace ++ trWriteByte s.params.timing v } = .next t) :
    Runs 40 s t := by
  let s' : State := { s with byte := some v }
  have hstart : s.atFrameStart = true := by simp [State.atFrameStart, hz, hb]
  have hstart' : s'.atFrameStart = true := hstart
  have hstep : step s = step s' := by
    rw [hq s hs hw rfl, hq s' hs hw rfl]
    simp [sendByte, hstart, hstart', s']
  have hrun : Runs 40 s' t := by
    refine byteFrame_runs (q := q) (done := done) (fun u hu huw hup hub => ?_) hs rfl hw hz hb hd hp ht
    rw [hq u hu huw hup, sendByte]
    split
    · rw [← hub]
    · rfl
  exact Runs.of_step_eq hstep hrun

/-! ## The response frames (R75, R80) -/

/-- What an accumulation writes: one of the three accumulators, given by how each of the three is
written when the value is `a`. -/
structure Target (w : Nat) where
  reg : DataReg
  get : State → Option (BitVec w)
  inByte : BitVec w → Option Byte → Option Byte
  inRaw : BitVec w → Option Half → Option Half
  inSerial : BitVec w → Option Wide → Option Wide

/-- The state with the accumulator at `a`. -/
def Target.put {w : Nat} (g : Target w) (a : BitVec w) (s : State) : State :=
  { s with byte := g.inByte a s.byte, raw := g.inRaw a s.raw, serial := g.inSerial a s.serial }

/-- The accumulator holds what was put into it last. -/
structure Target.Lawful {w : Nat} (g : Target w) : Prop where
  get_put : ∀ a s, g.get (g.put a s) = some a
  get_congr : ∀ s t : State, s.byte = t.byte → s.raw = t.raw → s.serial = t.serial →
    g.get s = g.get t
  byte_byte : ∀ a a' x, g.inByte a (g.inByte a' x) = g.inByte a x
  raw_raw : ∀ a a' x, g.inRaw a (g.inRaw a' x) = g.inRaw a x
  serial_serial : ∀ a a' x, g.inSerial a (g.inSerial a' x) = g.inSerial a x

/-- `acc <- acc | (zext_w(b) << i)`. -/
def Target.store {w : Nat} (g : Target w) (i : Nat) (b : Bit) (s : State) (k : State → Result) :
    Result :=
  readReg g.reg (g.get s) fun acc => k (g.put (accumulate acc i b) s)

/-- A frame of `w` bits into the accumulator. -/
def Target.frame {w : Nat} (g : Target w) (done : State → Result) (s : State) : Result :=
  responseFrame w (g.put 0) g.store done s

/-- The state after `n` bits of the frame, the accumulator cleared first. -/
def Target.after {w : Nat} (g : Target w) (n : Nat) (s : State) : State :=
  g.put (BitVec.ofNat w (lsbValue (answers n s))) { dropSamples n s with
    bit := (answers n s).getLast?.or s.bit
    bitcnt := n
    trace := s.trace ++ trRead s.params.timing (answers n s) }

theorem Target.after_seq {w : Nat} (g : Target w) (n : Nat) (s : State) :
    (g.after n s).seq = s.seq := by
  simp only [Target.after, Target.put]
  rw [dropSamples_eq]

theorem Target.after_zero {w : Nat} (g : Target w) {s : State} (hb : s.bitcnt = 0) :
    g.after 0 s = g.put 0 s := by
  simp [Target.after, answers, dropSamples, lsbValue, trRead, Target.put, hb]

theorem Target.put_put {w : Nat} {g : Target w} (hg : g.Lawful) (a a' : BitVec w) (s : State) :
    g.put a (g.put a' s) = g.put a s := by
  simp [Target.put, hg.byte_byte, hg.raw_raw, hg.serial_serial]

/-- Storing the sampled bit at the end of slot `n`. -/
theorem Target.store_after {w : Nat} {g : Target w} (hg : g.Lawful) {s : State} {n : Nat}
    (hn : n < w) (k : State → Result) :
    g.store n (nextSample (g.after n s)) { dropSample (g.after n s) with
      bit := some (nextSample (g.after n s)), slot := 7
      trace := (g.after n s).trace ++
        trReadBit (g.after n s).params.timing (nextSample (g.after n s)) } k =
      k { g.after (n + 1) s with bitcnt := n, slot := 7 } := by
  have hns : nextSample (g.after n s) = nextSample (dropSamples n s) := nextSample_congr rfl rfl
  have hlen := answers_length n s
  have hacc := accumulate_lsbValue (w := w) (answers n s) (nextSample (dropSamples n s))
    (by omega)
  rw [hlen, ← answers_succ] at hacc
  have hget : g.get { dropSample (g.after n s) with
      bit := some (nextSample (g.after n s)), slot := 7
      trace := (g.after n s).trace ++
        trReadBit (g.after n s).params.timing (nextSample (g.after n s)) } =
      some (BitVec.ofNat w (lsbValue (answers n s))) := by
    refine Eq.trans (hg.get_congr _ (g.after n s) ?_ ?_ ?_) (hg.get_put _ _) <;> rfl
  unfold Target.store
  rw [hget, hns]
  show k (g.put (accumulate _ n _) _) = _
  rw [hacc]
  congr 1
  have hd := dropSamples_eq n s
  simp only [Target.after, Target.put, hg.byte_byte, hg.raw_raw, hg.serial_serial,
    dropSamples_succ, answers_succ, List.getLast?_append, List.getLast?_singleton, trRead,
    List.flatMap_append, dropSample]
  rw [hd]
  simp

theorem Target.slot_runs {w : Nat} {g : Target w} (hg : g.Lawful) {q : Seq} {done : State → Result}
    {s t : State}
    (hq : ∀ u : State, u.seq = q → u.HostWaits → step u = g.frame done u)
    (hs : s.seq = q) (hw : s.HostWaits) (hz : s.slot = 0)
    (hd : s.pinDir = .output) (hp : s.pinOut = true) (n : Nat) (hn : n < w)
    (ht : nextBit w done { g.after (n + 1) s with bitcnt := n, slot := 7 } = .next t) :
    Runs 8 (g.after n s) t := by
  have hsn : (g.after n s).seq = q := (g.after_seq n s).trans hs
  have hd' : (g.after n s) = { g.after n s with
      slot := 0, pinDir := .output, pinOut := true, host := s.host } := by
    simp only [Target.after, Target.put]
    rw [dropSamples_eq]
    simp [hz, hd, hp]
  have hzn : (g.after n s).slot = 0 := by rw [hd']
  have hwn : (g.after n s).HostWaits := by
    rw [hd']
    exact hw
  refine readSlot_runs (q := q)
    (done := fun s => readReg .bit s.bit fun b => g.store s.bitcnt b s (nextBit w done)) ?_ ?_ hsn
    hwn hzn (by rw [hd']) (by rw [hd']) ?_
  · rw [hq _ hsn hwn, Target.frame, responseFrame]
    split
    · have h0 : n = 0 := by
        rename_i h
        simp [State.atFrameStart] at h
        exact h.1
      subst h0
      rw [show g.after 0 s = g.put 0 _ from rfl, Target.put_put hg]
    · rfl
  · intro u hu huw hpos
    rw [hq u hu huw, Target.frame, responseFrame]
    have : u.atFrameStart = false := by simp [State.atFrameStart]; omega
    simp [this]
  · rw [← ht]
    exact Target.store_after hg hn _

/-- A whole response frame: `8 w` events; `done` follows the last slot. -/
theorem Target.frame_runs {w : Nat} {g : Target w} (hg : g.Lawful) {q : Seq} {done : State → Result}
    {s t : State} (hw1 : 1 < w)
    (hq : ∀ u : State, u.seq = q → u.HostWaits → step u = g.frame done u)
    (hs : s.seq = q) (hw : s.HostWaits) (hz : s.slot = 0) (hb : s.bitcnt = 0)
    (hd : s.pinDir = .output) (hp : s.pinOut = true)
    (ht : done (g.put (BitVec.ofNat w (lsbValue (answers w s))) { dropSamples w s with
      bit := (answers w s).getLast?, trace := s.trace ++ trRead s.params.timing (answers w s) })
      = .next t) :
    Runs (8 * w) s t := by
  have hbits : ∀ n, n < w → Runs (8 * n) (g.after 0 s) (g.after n s) := by
    intro n
    induction n with
    | zero => intro _; exact Runs.zero _
    | succ n ih =>
      intro hn
      refine (ih (by omega)).trans (Target.slot_runs hg hq hs hw hz hd hp n (by omega) ?_)
      have hslot : (g.after (n + 1) s).slot = 0 := by
        simp only [Target.after, Target.put]
        rw [dropSamples_eq]
        exact hz
      simp only [nextBit, hn, if_true]
      congr 1
      simp [Target.after, Target.put, ← hslot]
  obtain ⟨m, rfl⟩ : ∃ m, w = m + 1 := ⟨w - 1, by omega⟩
  have hrun : Runs (8 * (m + 1)) (g.after 0 s) t := by
    refine (hbits m (by omega)).trans (Target.slot_runs hg hq hs hw hz hd hp m (by omega) ?_)
    rw [← ht]
    simp only [nextBit, lt_irrefl, if_false, if_true]
    congr 1
    have hne : (answers (m + 1) s).getLast?.or s.bit = (answers (m + 1) s).getLast? := by
      rw [answers_succ]
      simp
    simp only [Target.after, Target.put, hne]
    rw [dropSamples_eq]
    simp [hz, hb]
  refine Runs.of_step_eq (n := 8 * m + 7) (s' := g.after 0 s) ?_ hrun
  have hstart : s.atFrameStart = true := by simp [State.atFrameStart, hz, hb]
  rw [hq s hs hw, g.after_zero hb, hq (g.put 0 s) hs hw, Target.frame, Target.frame, responseFrame,
    responseFrame]
  have hstart' : (g.put 0 s).atFrameStart = true := hstart
  rw [if_pos hstart, if_pos hstart', Target.put_put hg]

/-! ## The three accumulators -/

/-- `BYTE`, of `READ_BYTE` (R125). -/
def byteTarget : Target 8 where
  reg := .byte
  get := State.byte
  inByte := fun a _ => some a
  inRaw := fun _ x => x
  inSerial := fun _ x => x

/-- `RAW`, of `ACC16` (R165). -/
def rawTarget : Target 16 where
  reg := .raw
  get := State.raw
  inByte := fun _ x => x
  inRaw := fun a _ => some a
  inSerial := fun _ x => x

/-- `SERIAL`, of `ACC64` (R175). -/
def serialTarget : Target 64 where
  reg := .serial
  get := State.serial
  inByte := fun _ x => x
  inRaw := fun _ x => x
  inSerial := fun a _ => some a

theorem byteTarget_lawful : byteTarget.Lawful :=
  ⟨fun _ _ => rfl, fun _ _ h _ _ => h, fun _ _ _ => rfl, fun _ _ _ => rfl, fun _ _ _ => rfl⟩

theorem rawTarget_lawful : rawTarget.Lawful :=
  ⟨fun _ _ => rfl, fun _ _ _ h _ => h, fun _ _ _ => rfl, fun _ _ _ => rfl, fun _ _ _ => rfl⟩

theorem serialTarget_lawful : serialTarget.Lawful :=
  ⟨fun _ _ => rfl, fun _ _ _ _ h => h, fun _ _ _ => rfl, fun _ _ _ => rfl, fun _ _ _ => rfl⟩

theorem readByteFrame_eq (done : State → Result) (s : State) :
    readByteFrame done s = byteTarget.frame done s := rfl

theorem acc16Frame_eq (done : State → Result) (s : State) :
    acc16Frame done s = rawTarget.frame done s := rfl

theorem acc64Frame_eq (done : State → Result) (s : State) :
    acc64Frame done s = serialTarget.frame done s := rfl

/-! ## The conversion wait (R138) -/

theorem answers_of {n : Nat} {s t : State} {l : List Bit} (h : answers n t = l)
    (he : s.env = t.env) (hd : s.draws = t.draws) : answers n s = l :=
  (answers_congr he hd n).trans h

/-- The wait that reads `k` zeros and then a one; `exit` follows the last event of the poll that read
the one. -/
theorem poll_runs {q qd : Seq} {exit : State → Result} {s t : State}
    (hq : ∀ u : State, u.seq = q → u.HostWaits → step u = pollOnce qd exit u)
    (hqd : ∀ u : State, u.seq = qd → u.HostWaits → step u = pollDelay q u)
    (hs : s.seq = q) (hw : s.HostWaits) (hz : s.slot = 0) (hb : s.bitcnt = 0)
    (hd : s.pinDir = .output) (hp : s.pinOut = true) (k : Nat)
    (ha : answers (k + 1) s = List.replicate k false ++ [true])
    (ht : exit { dropSamples (k + 1) s with
      bit := some true, slot := 7, trace := s.trace ++ trWait s.params.timing k } = .next t) :
    Runs (9 * k + 8) s t := by
  induction k generalizing s with
  | zero =>
    have hn : nextSample s = true := by simpa [answers] using ha
    refine readSlot_runs (q := q) (hq s hs hw) (fun u hu huw _ => hq u hu huw) hs hw hz hd hp ?_
    rw [← ht]
    simp [readReg, hn, dropSamples, trWait]
  | succ k ih =>
    have hn : nextSample s = false := by
      have := congrArg List.head? ha
      simpa [answers, List.replicate_succ] using this
    let polled : State := { dropSample s with
      seq := qd, bit := some false, trace := s.trace ++ trReadBit s.params.timing false }
    let waited : State := { polled with
      seq := q, trace := s.trace ++ trReadBit s.params.timing false
        ++ [.dlyMs s.params.timing.tConvPoll] }
    have h1 : Runs 8 s polled := by
      refine readSlot_runs (q := q) (hq s hs hw) (fun u hu huw _ => hq u hu huw) hs hw hz hd hp ?_
      simp [readReg, hn, goto, atPhase, polled, hz, hb]
    have h2 : Runs 1 polled waited := by
      refine Runs.one ((hqd polled rfl hw).trans ?_)
      simp [pollDelay, emit, pinRule, recordEvent, applyEvent, goto, atPhase, polled, waited, hz, hb]
    have ha' : answers (k + 1) (dropSample s) = List.replicate k false ++ [true] := by
      have := congrArg List.tail ha
      simpa [answers, List.replicate_succ] using this
    have h3 := ih (s := waited) rfl hw hz hb hd hp (answers_of ha' rfl rfl) (by
      rw [← ht]
      congr 1
      have e := dropSamples_congr (s := waited) (t := dropSample s) rfl rfl (k + 1)
      rw [dropSamples_eq, dropSamples_eq (k + 1 + 1) s, e.1, e.2]
      simp [trWait, hs, dropSamples, waited, polled])
    have := (h1.trans h2).trans h3
    rwa [show 8 + 1 + (9 * k + 8) = 9 * (k + 1) + 8 by omega] at this

end Sys2Proof.Machine
end

