-- ==== Sys2Proof/Laws/Slots.lean ====
section
/-! SUPPORT. What each slot and each frame can do in one step, said once: the event it emits and what
else it writes. The frames of the instructions follow from these without unfolding an operation. -/

namespace Sys2Proof.Machine

open Sys2Proof

/-- Whether an event takes no sample, changes no direction and configures nothing: the events of a
write slot and of the reset pulse. -/
def Event.drivesOnly : Event → Bool
  | .low | .high | .dlyUs _ | .dlyMs _ => true
  | .cfg _ _ | .dirIn | .dirOut | .smp _ => false

/-- Whether an event takes no sample. -/
def Event.noSample : Event → Bool
  | .smp _ => false
  | .low | .high | .dlyUs _ | .dlyMs _ | .cfg _ _ | .dirIn | .dirOut => true

theorem Event.noSample_of_drivesOnly {e : Event} (h : e.drivesOnly = true) : e.noSample = true := by
  cases e <;> simp_all [Event.drivesOnly, Event.noSample]

/-- The state after event `e` of a slot, the position one further. -/
def advance (e : Event) (s : State) : State := { recordEvent e s with slot := s.slot + 1 }

theorem emit_nextSlot {e : Event} {s t : State} (h : emit e nextSlot s = .next t) :
    pinRule e s.pinDir = none ∧ t = advance e s := by
  obtain ⟨hp, hk⟩ := emit_next h
  refine ⟨hp, (nextSlot_next hk).trans ?_⟩
  cases e <;> rfl

theorem resetPulse_next {done : State → Result} {s t : State} (h : resetPulse done s = .next t) :
    ∃ e, e.drivesOnly = true ∧ pinRule e s.pinDir = none ∧
      (s.slot < 3 ∧ t = advance e s ∨ s.slot = 3 ∧ done (recordEvent e s) = .next t) := by
  unfold resetPulse at h
  split at h
  case h_4 hs =>
    obtain ⟨hp, hk⟩ := emit_next h
    exact ⟨_, rfl, hp, .inr ⟨hs, hk⟩⟩
  case h_5 => cases h
  all_goals
    obtain ⟨hp, hk⟩ := emit_nextSlot h
    exact ⟨_, rfl, hp, .inl ⟨by omega, hk⟩⟩

theorem writeSlot_next {b : Bit} {done : State → Result} {s t : State}
    (h : writeSlot b done s = .next t) :
    ∃ e, e.drivesOnly = true ∧ pinRule e s.pinDir = none ∧
      (s.slot < 3 ∧ t = advance e s ∨ s.slot = 3 ∧ done (recordEvent e s) = .next t) := by
  unfold writeSlot at h
  split at h
  case h_4 hs =>
    obtain ⟨hp, hk⟩ := emit_next h
    exact ⟨_, rfl, hp, .inr ⟨hs, hk⟩⟩
  case h_5 => cases h
  all_goals
    obtain ⟨hp, hk⟩ := emit_nextSlot h
    exact ⟨_, rfl, hp, .inl ⟨by omega, hk⟩⟩

theorem readSlot_next {done : State → Result} {s t : State} (h : readSlot done s = .next t) :
    (∃ e, e.noSample = true ∧ pinRule e s.pinDir = none ∧ (∀ od sp, e ≠ .cfg od sp) ∧
      (s.slot < 7 ∧ t = advance e s ∨ s.slot = 7 ∧ done (recordEvent e s) = .next t)) ∨
    s.slot = 5 ∧ s.pinDir = .input ∧
      t = { advance (.smp (nextSample s)) (dropSample s) with bit := some (nextSample s) } := by
  unfold readSlot at h
  split at h
  case h_6 =>
    obtain ⟨hd, hk⟩ := sample_next h
    exact .inr ⟨‹_›, hd, nextSlot_next hk⟩
  case h_8 hs =>
    obtain ⟨hp, hk⟩ := emit_next h
    exact .inl ⟨_, rfl, hp, by simp, .inr ⟨hs, hk⟩⟩
  case h_9 => cases h
  all_goals
    obtain ⟨hp, hk⟩ := emit_nextSlot h
    exact .inl ⟨_, rfl, hp, by simp, .inl ⟨by omega, hk⟩⟩

theorem byteFrame_next {done : State → Result} {s t : State} (h : byteFrame done s = .next t) :
    ∃ v e, s.byte = some v ∧ e.drivesOnly = true ∧ pinRule e s.pinDir = none ∧
      (t = advance e (loadBit v s) ∨ nextBit 8 done (recordEvent e s) = .next t) := by
  obtain ⟨v, hv, h⟩ := readReg_next h
  have hl : (loadBit v s).pinDir = s.pinDir := by unfold loadBit; split <;> rfl
  have hs : (loadBit v s).slot = s.slot := by unfold loadBit; split <;> rfl
  split at h
  · obtain ⟨hp, hk⟩ := emit_next h
    exact ⟨v, _, hv, rfl, hp, .inr hk⟩
  · obtain ⟨b, -, h⟩ := readReg_next h
    obtain ⟨e, he, hp, h⟩ := writeSlot_next h
    refine ⟨v, e, hv, he, hl ▸ hp, .inl ?_⟩
    rcases h with ⟨-, h⟩ | ⟨-, h⟩
    · exact h
    · rw [nextSlot_next h, advance, recordEvent]
      cases e <;> rfl

theorem sendByte_next {v : Byte} {done : State → Result} {s t : State}
    (h : sendByte v done s = .next t) :
    ∃ v' e, (v' = v ∨ s.atFrameStart = false ∧ s.byte = some v') ∧ e.drivesOnly = true ∧ pinRule e s.pinDir = none ∧
      (t = advance e (loadBit v' { s with byte := some v' }) ∨
        nextBit 8 done (recordEvent e { s with byte := some v' }) = .next t) := by
  obtain ⟨v', e, hv, he, hp, h⟩ := byteFrame_next h
  split at hv
  case isTrue hz =>
    rw [if_pos hz] at hp h
    cases hv
    exact ⟨v, e, .inl rfl, he, hp, h⟩
  case isFalse hz =>
    rw [if_neg hz] at hp h
    refine ⟨v', e, .inr ⟨by simpa using hz, hv⟩, he, hp, ?_⟩
    rw [← hv]
    exact h

theorem responseFrame_next {n : Nat} {clear : State → State}
    {store : Nat → Bit → State → (State → Result) → Result} {done : State → Result} {s t : State}
    (h : responseFrame n clear store done s = .next t) :
    ∃ s', (s' = s ∨ s' = clear s) ∧
      ((∃ e, e.noSample = true ∧ pinRule e s'.pinDir = none ∧ (∀ od sp, e ≠ .cfg od sp) ∧
        (t = advance e s' ∨ ∃ b, s'.bit = some b ∧
          store s'.bitcnt b (recordEvent e s') (nextBit n done) = .next t)) ∨
      s'.pinDir = .input ∧
        t = { advance (.smp (nextSample s')) (dropSample s') with bit := some (nextSample s') }) := by
  refine ⟨if s.atFrameStart then clear s else s, by split <;> simp, ?_⟩
  rcases readSlot_next h with ⟨e, he, hp, hc, h⟩ | ⟨-, hd, h⟩
  · refine .inl ⟨e, he, hp, hc, ?_⟩
    rcases h with ⟨-, h⟩ | ⟨-, h⟩
    · exact .inl h
    · obtain ⟨b, hb, h⟩ := readReg_next h
      refine .inr ⟨b, ?_, ?_⟩
      · rw [← hb]
        cases e <;> rfl
      · have : ∀ u : State, (recordEvent e u).bitcnt = u.bitcnt := by cases e <;> intro u <;> rfl
        rw [this] at h
        exact h
  · exact .inr ⟨hd, h⟩

theorem pollOnce_next {q : Seq} {exit : State → Result} {s t : State}
    (h : pollOnce q exit s = .next t) :
    (∃ e, e.noSample = true ∧ pinRule e s.pinDir = none ∧ (∀ od sp, e ≠ .cfg od sp) ∧
      (t = advance e s ∨ t = atPhase q (recordEvent e s) ∨ exit (recordEvent e s) = .next t)) ∨
    s.pinDir = .input ∧
      t = { advance (.smp (nextSample s)) (dropSample s) with bit := some (nextSample s) } := by
  rcases readSlot_next h with ⟨e, he, hp, hc, h⟩ | ⟨-, hd, h⟩
  · refine .inl ⟨e, he, hp, hc, ?_⟩
    rcases h with ⟨-, h⟩ | ⟨-, h⟩
    · exact .inl h
    · obtain ⟨b, -, h⟩ := readReg_next h
      split at h
      · exact .inr (.inr h)
      · exact .inr (.inl (goto_next h))
  · exact .inr ⟨hd, h⟩

theorem pollDelay_next {q : Seq} {s t : State} (h : pollDelay q s = .next t) :
    t = atPhase q (recordEvent (.dlyMs s.params.timing.tConvPoll) s) := goto_next (emit_next h).2

theorem decodeTempNow_next {done : State → Result} {s t : State}
    (h : decodeTempNow done s = .next t) :
    ∃ raw, s.raw = some raw ∧
      done { s with sign := signOfRaw raw, temp := some (tempOfRaw raw) } = .next t :=
  readReg_next h

end Sys2Proof.Machine
end

