-- ==== Sys2Proof/Laws/Steps.lean ====
section
/-! SUPPORT. What one step can do, said once: the cases of the host port, and the one event a step of an
operation emits. -/

namespace Sys2Proof.Machine

open Sys2Proof

/-! ## The cases of a step -/

theorem carryOn_cases (s : State) :
    (∃ i, s.current = some i ∧ carryOn s = .run i s) ∨ s.seq = .idle ∧ carryOn s = .settle s := by
  cases h : s.current with
  | none => exact .inr ⟨(current_none_iff s).1 h, by simp [carryOn, h]⟩
  | some i => exact .inl ⟨i, rfl, carryOn_of_current h⟩

theorem presentRequest_cases (w : CommandWord) (s : State) :
    (∃ i, decode s.params.codes w = .ok i ∧ presentRequest w s = .run i s) ∨
      ∃ e, decode s.params.codes w = .error e ∧ presentRequest w s = .reject (refusalOf e) := by
  cases h : decode s.params.codes w with
  | ok i => exact .inl ⟨i, rfl, by simp [presentRequest, h]⟩
  | error e => exact .inr ⟨e, rfl, by simp [presentRequest, h]⟩

/-- What a step is. -/
inductive StepCase (s : State) : Prop where
  /-- A hardware reset. -/
  | reset (h : List HostMove) (hh : s.host = .hardReset :: h)
    (e : step s = .next (hardwareReset { s with host := h }))
  /-- The next step of the instruction in progress. -/
  | carriesOn (h : List HostMove) (i : Instr) (hr : s.host.head? ≠ some .hardReset)
    (hc : s.current = some i) (e : step s = exec i { s with host := h })
  /-- Nothing to do. -/
  | waits (h : List HostMove) (hr : s.host.head? ≠ some .hardReset) (hi : s.seq = .idle)
    (e : step s = .next { s with host := h })
  /-- A request, accepted or refused by the instruction it names. -/
  | starts (w : CommandWord) (h : List HostMove) (i : Instr)
    (hr : s.host = .request w :: h ∨ s.host = .requestNow w :: h) (hi : s.seq = .idle)
    (hd : decode s.params.codes w = .ok i) (e : step s = exec i { s with host := h })
  /-- A request that names no instruction. -/
  | rejects (w : CommandWord) (h : List HostMove) (r : DecodeError)
    (hr : s.host = .request w :: h ∨ s.host = .requestNow w :: h) (hi : s.seq = .idle)
    (hd : decode s.params.codes w = .error r) (e : step s = .refused (refusalOf r))

theorem step_of_run {s t : State} {i : Instr} (h : nextAction s = .run i t) : step s = exec i t := by
  rw [step, h]

theorem step_of_settle {s t : State} (h : nextAction s = .settle t) : step s = .next t := by
  rw [step, h]

theorem step_of_reject {s : State} {r : Refusal} (h : nextAction s = .reject r) :
    step s = .refused r := by
  rw [step, h]

theorem step_cases (s : State) : StepCase s := by
  have carry : ∀ h, nextAction s = carryOn { s with host := h } → s.host.head? ≠ some .hardReset →
      StepCase s := by
    intro h ha hr
    rcases carryOn_cases { s with host := h } with ⟨i, hc, e⟩ | ⟨hi, e⟩
    · exact .carriesOn h i hr hc (step_of_run (ha.trans e))
    · exact .waits h hr hi (step_of_settle (ha.trans e))
  have present : ∀ w h, s.host = .request w :: h ∨ s.host = .requestNow w :: h → s.seq = .idle →
      nextAction s = presentRequest w { s with host := h } → StepCase s := by
    intro w h hr hi ha
    rcases presentRequest_cases w { s with host := h } with ⟨i, hd, e⟩ | ⟨r, hd, e⟩
    · exact .starts w h i hr hi hd (step_of_run (ha.trans e))
    · exact .rejects w h r hr hi hd (step_of_reject (ha.trans e))
  cases hh : s.host with
  | nil => exact carry s.host (by simp [nextAction, hh]; rw [← hh]) (by simp [hh])
  | cons m h =>
    cases m with
    | hardReset => exact .reset h hh (step_of_settle (by simp [nextAction, hh]))
    | pass => exact carry h (by simp [nextAction, hh]) (by simp [hh])
    | request w =>
      by_cases hi : s.seq = .idle
      · exact present w h (.inl hh) hi (by simp [nextAction, hh, State.busy, hi])
      · exact carry s.host (by simp [nextAction, hh, State.busy, hi]; rw [← hh]) (by simp [hh])
    | requestNow w =>
      by_cases hi : s.seq = .idle
      · exact present w h (.inr hh) hi (by simp [nextAction, hh, State.busy, hi])
      · exact carry h (by simp [nextAction, hh, State.busy, hi]) (by simp [hh])

/-! ## The one event of a step -/

/-- `t` differs from `s` in the control position and the registers `BIT`, `BYTE`, `RAW`, `SERIAL` at
most. -/
structure Quiet (s t : State) : Prop where
  trace : t.trace = s.trace
  pinOut : t.pinOut = s.pinOut
  pinDir : t.pinDir = s.pinDir
  configured : t.configured = s.configured
  env : t.env = s.env
  draws : t.draws = s.draws
  sign : t.sign = s.sign
  temp : t.temp = s.temp
  params : t.params = s.params
  host : t.host = s.host

/-- A step from `s` to `t` emits `e` and does nothing to the pin, the environment, `SIGN` and `TEMP` but
what `e` does. -/
structure Emits (e : Event) (s t : State) : Prop where
  rule : pinRule e s.pinDir = none
  trace : t.trace = s.trace ++ [e]
  pinOut : t.pinOut = (recordEvent e s).pinOut
  pinDir : t.pinDir = (recordEvent e s).pinDir
  configured : t.configured = (recordEvent e s).configured
  sampled : ∀ b, e = .smp b →
    b = nextSample s ∧ t.bit = some b ∧ t.env = (dropSample s).env ∧ t.draws = (dropSample s).draws
  unsampled : e.noSample = true → t.env = s.env ∧ t.draws = s.draws
  sign : t.sign = s.sign
  temp : t.temp = s.temp
  params : t.params = s.params
  host : t.host = s.host

theorem Quiet.refl (s : State) : Quiet s s := ⟨rfl, rfl, rfl, rfl, rfl, rfl, rfl, rfl, rfl, rfl⟩

theorem Quiet.trans {s t u : State} (h : Quiet s t) (g : Quiet t u) : Quiet s u :=
  ⟨g.trace.trans h.trace, g.pinOut.trans h.pinOut, g.pinDir.trans h.pinDir,
    g.configured.trans h.configured, g.env.trans h.env, g.draws.trans h.draws,
    g.sign.trans h.sign, g.temp.trans h.temp, g.params.trans h.params, g.host.trans h.host⟩

/-- An event that is no sample, and then nothing but quiet assignments. -/
theorem emits_of_quiet {e : Event} {s t : State} (hp : pinRule e s.pinDir = none)
    (he : e.noSample = true) (h : Quiet (recordEvent e s) t) : Emits e s t where
  rule := hp
  trace := by simp [h.trace]
  pinOut := h.pinOut
  pinDir := h.pinDir
  configured := h.configured
  sampled := by rintro b rfl; cases he
  unsampled := fun _ => by simp [h.env, h.draws]
  sign := by simp [h.sign]
  temp := by simp [h.temp]
  params := by simp [h.params]
  host := by simp [h.host]

/-- Quiet assignments, and then an event. -/
theorem Emits.after_quiet {e : Event} {s s' t : State} (h : Quiet s s') (g : Emits e s' t) :
    Emits e s t where
  rule := h.pinDir ▸ g.rule
  trace := by rw [g.trace, h.trace]
  pinOut := by rw [g.pinOut, recordEvent_pinOut, recordEvent_pinOut, h.pinOut]
  pinDir := by rw [g.pinDir, recordEvent_pinDir, recordEvent_pinDir, h.pinDir]
  configured := by rw [g.configured, recordEvent_configured, recordEvent_configured, h.configured]
  sampled := fun b hb => by
    obtain ⟨h₁, h₂, h₃, h₄⟩ := g.sampled b hb
    refine ⟨h₁.trans (nextSample_congr h.env h.draws), h₂, ?_, ?_⟩
    · rw [h₃, dropSample_env, dropSample_env, h.env]
    · rw [h₄, dropSample_draws, dropSample_draws, h.draws]
  unsampled := fun he => ⟨(g.unsampled he).1.trans h.env, (g.unsampled he).2.trans h.draws⟩
  sign := g.sign.trans h.sign
  temp := g.temp.trans h.temp
  params := g.params.trans h.params
  host := g.host.trans h.host

/-- The sample of a read slot. -/
theorem emits_sample {s : State} (hd : s.pinDir = .input) : Emits (.smp (nextSample s)) s
    { advance (.smp (nextSample s)) (dropSample s) with bit := some (nextSample s) } where
  rule := by simp [pinRule, hd]
  trace := rfl
  pinOut := rfl
  pinDir := rfl
  configured := rfl
  sampled := by rintro b ⟨⟩; exact ⟨rfl, rfl, rfl, rfl⟩
  unsampled := by intro h; cases h
  sign := rfl
  temp := rfl
  params := rfl
  host := rfl

theorem quiet_advance (e : Event) (s : State) : Quiet (recordEvent e s) (advance e s) :=
  ⟨rfl, rfl, rfl, rfl, rfl, rfl, rfl, rfl, rfl, rfl⟩

/-- What follows the last event of a slot or a frame is quiet. -/
def QuietThen (done : State → Result) : Prop := ∀ s t, done s = .next t → Quiet s t

theorem quiet_goto (q : Seq) : QuietThen (goto q) := fun s t h => by
  rw [goto_next h]
  exact ⟨rfl, rfl, rfl, rfl, rfl, rfl, rfl, rfl, rfl, rfl⟩

theorem quiet_nextBit (n : Nat) {done : State → Result} (hd : QuietThen done) :
    QuietThen (nextBit n done) := fun s t h => by
  rcases nextBit_next h with ⟨-, rfl⟩ | ⟨-, h⟩
  · exact ⟨rfl, rfl, rfl, rfl, rfl, rfl, rfl, rfl, rfl, rfl⟩
  · have := hd _ _ h
    exact ⟨this.1, this.2, this.3, this.4, this.5, this.6, this.7, this.8, this.9, this.10⟩

theorem quiet_loadBit (v : Byte) (s : State) : Quiet s (loadBit v s) := by
  unfold loadBit
  split <;> exact ⟨rfl, rfl, rfl, rfl, rfl, rfl, rfl, rfl, rfl, rfl⟩

theorem emits_resetPulse {done : State → Result} (hd : QuietThen done) {s t : State}
    (h : resetPulse done s = .next t) : ∃ e, e.drivesOnly = true ∧ Emits e s t := by
  obtain ⟨e, he, hp, h⟩ := resetPulse_next h
  refine ⟨e, he, emits_of_quiet hp (Event.noSample_of_drivesOnly he) ?_⟩
  rcases h with ⟨-, rfl⟩ | ⟨-, h⟩
  · exact quiet_advance e s
  · exact hd _ _ h

theorem emits_writeSlot {b : Bit} {done : State → Result} (hd : QuietThen done) {s t : State}
    (h : writeSlot b done s = .next t) : ∃ e, e.drivesOnly = true ∧ Emits e s t := by
  obtain ⟨e, he, hp, h⟩ := writeSlot_next h
  refine ⟨e, he, emits_of_quiet hp (Event.noSample_of_drivesOnly he) ?_⟩
  rcases h with ⟨-, rfl⟩ | ⟨-, h⟩
  · exact quiet_advance e s
  · exact hd _ _ h

theorem emits_byteFrame {done : State → Result} (hd : QuietThen done) {s t : State}
    (h : byteFrame done s = .next t) : ∃ e, e.drivesOnly = true ∧ Emits e s t := by
  obtain ⟨v, e, -, he, hp, h⟩ := byteFrame_next h
  refine ⟨e, he, ?_⟩
  rcases h with rfl | h
  · refine .after_quiet (quiet_loadBit v s) (emits_of_quiet ?_ (Event.noSample_of_drivesOnly he)
      (quiet_advance _ _))
    rwa [(quiet_loadBit v s).pinDir]
  · exact emits_of_quiet hp (Event.noSample_of_drivesOnly he) (quiet_nextBit 8 hd _ _ h)

theorem emits_sendByte {v : Byte} {done : State → Result} (hd : QuietThen done) {s t : State}
    (h : sendByte v done s = .next t) : ∃ e, e.drivesOnly = true ∧ Emits e s t := by
  obtain ⟨e, he, h⟩ := emits_byteFrame hd h
  refine ⟨e, he, .after_quiet ?_ h⟩
  split
  · exact ⟨rfl, rfl, rfl, rfl, rfl, rfl, rfl, rfl, rfl, rfl⟩
  · exact .refl s

theorem emits_readSlot {done : State → Result} (hd : QuietThen done) {s t : State}
    (h : readSlot done s = .next t) : ∃ e, (∀ od sp, e ≠ .cfg od sp) ∧ Emits e s t := by
  rcases readSlot_next h with ⟨e, he, hp, hc, h⟩ | ⟨-, hi, rfl⟩
  · refine ⟨e, hc, emits_of_quiet hp he ?_⟩
    rcases h with ⟨-, rfl⟩ | ⟨-, h⟩
    · exact quiet_advance e s
    · exact hd _ _ h
  · exact ⟨_, by simp, emits_sample hi⟩

/-- A frame whose clearing and storing are quiet. -/
theorem emits_responseFrame {n : Nat} {clear : State → State}
    {store : Nat → Bit → State → (State → Result) → Result} {done : State → Result}
    (hc : ∀ s, Quiet s (clear s)) (hs : ∀ i b k, QuietThen k → QuietThen (store i b · k))
    (hd : QuietThen done) {s t : State} (h : responseFrame n clear store done s = .next t) :
    ∃ e, (∀ od sp, e ≠ .cfg od sp) ∧ Emits e s t := by
  have hq : QuietThen fun s => readReg .bit s.bit fun b => store s.bitcnt b s (nextBit n done) := by
    intro s t h
    obtain ⟨b, -, h⟩ := readReg_next h
    exact hs _ _ _ (quiet_nextBit n hd) _ _ h
  obtain ⟨e, he, h⟩ := emits_readSlot hq h
  refine ⟨e, he, .after_quiet ?_ h⟩
  split
  · exact hc s
  · exact .refl s

theorem quiet_storeInByte (i : Nat) (b : Bit) (k : State → Result) (hk : QuietThen k) :
    QuietThen (storeInByte i b · k) := fun s t h => by
  obtain ⟨a, -, h⟩ := readReg_next h
  have := hk _ _ h
  exact ⟨this.1, this.2, this.3, this.4, this.5, this.6, this.7, this.8, this.9, this.10⟩

theorem quiet_storeInRaw (i : Nat) (b : Bit) (k : State → Result) (hk : QuietThen k) :
    QuietThen (storeInRaw i b · k) := fun s t h => by
  obtain ⟨a, -, h⟩ := readReg_next h
  have := hk _ _ h
  exact ⟨this.1, this.2, this.3, this.4, this.5, this.6, this.7, this.8, this.9, this.10⟩

theorem quiet_storeInSerial (i : Nat) (b : Bit) (k : State → Result) (hk : QuietThen k) :
    QuietThen (storeInSerial i b · k) := fun s t h => by
  obtain ⟨a, -, h⟩ := readReg_next h
  have := hk _ _ h
  exact ⟨this.1, this.2, this.3, this.4, this.5, this.6, this.7, this.8, this.9, this.10⟩

theorem emits_readByteFrame {done : State → Result} (hd : QuietThen done) {s t : State}
    (h : readByteFrame done s = .next t) : ∃ e, (∀ od sp, e ≠ .cfg od sp) ∧ Emits e s t :=
  emits_responseFrame (clear := fun s => { s with byte := some 0 })
    (fun _ => ⟨rfl, rfl, rfl, rfl, rfl, rfl, rfl, rfl, rfl, rfl⟩) quiet_storeInByte hd h

theorem emits_acc16Frame {done : State → Result} (hd : QuietThen done) {s t : State}
    (h : acc16Frame done s = .next t) : ∃ e, (∀ od sp, e ≠ .cfg od sp) ∧ Emits e s t :=
  emits_responseFrame (clear := fun s => { s with raw := some 0 })
    (fun _ => ⟨rfl, rfl, rfl, rfl, rfl, rfl, rfl, rfl, rfl, rfl⟩) quiet_storeInRaw hd h

theorem emits_acc64Frame {done : State → Result} (hd : QuietThen done) {s t : State}
    (h : acc64Frame done s = .next t) : ∃ e, (∀ od sp, e ≠ .cfg od sp) ∧ Emits e s t :=
  emits_responseFrame (clear := fun s => { s with serial := some 0 })
    (fun _ => ⟨rfl, rfl, rfl, rfl, rfl, rfl, rfl, rfl, rfl, rfl⟩) quiet_storeInSerial hd h

theorem emits_pollOnce {q : Seq} {exit : State → Result} (hd : QuietThen exit) {s t : State}
    (h : pollOnce q exit s = .next t) : ∃ e, (∀ od sp, e ≠ .cfg od sp) ∧ Emits e s t := by
  refine emits_readSlot ?_ h
  intro s t h
  obtain ⟨b, -, h⟩ := readReg_next h
  split at h
  · exact hd _ _ h
  · exact quiet_goto q _ _ h

theorem emits_pollDelay {q : Seq} {s t : State} (h : pollDelay q s = .next t) :
    ∃ e, (∀ od sp, e ≠ .cfg od sp) ∧ Emits e s t :=
  ⟨_, by simp, emits_of_quiet (emit_next h).1 rfl (quiet_goto q _ _ (emit_next h).2)⟩

theorem Event.ne_cfg_of_drivesOnly {e : Event} (h : e.drivesOnly = true) (od : Bool) (sp : Nat) :
    e ≠ .cfg od sp := by
  rintro rfl
  cases h

/-! ## The instructions -/

/-- The phase of the temperature interpretation. -/
def Seq.decodes (q : Seq) : Bool := q == .t8 || q == .x .decodeTemp

/-- What an instruction's next step is: the start of an operation, the interpretation of `RAW`, or one
event. -/
inductive ExecCase (i : Instr) (s t : State) : Prop where
  | starts (hi : s.seq = .idle) (hb : t.seq ≠ .idle) (h : Quiet s t)
  | decodes (hq : s.seq.decodes = true) (raw : Half) (hr : s.raw = some raw)
    (h : t = atPhase .idle { s with sign := signOfRaw raw, temp := some (tempOfRaw raw) })
  | emits (hb : s.seq ≠ .idle) (hq : s.seq.decodes = false) (e : Event)
    (he : ∀ od sp, e = .cfg od sp → i = .init ∧ od = true ∧ sp = s.params.pinSpeed)
    (h : Emits e s t)

theorem ExecCase.of_drives {i : Instr} {s t : State} {q : Seq} (hs : s.seq = q) (hb : q ≠ .idle)
    (hq : q.decodes = false) (h : ∃ e, e.drivesOnly = true ∧ Emits e s t) : ExecCase i s t := by
  obtain ⟨e, he, h⟩ := h
  exact .emits (hs ▸ hb) (hs ▸ hq) e (fun od sp hc => absurd hc (e.ne_cfg_of_drivesOnly he od sp)) h

theorem ExecCase.of_reads {i : Instr} {s t : State} {q : Seq} (hs : s.seq = q) (hb : q ≠ .idle)
    (hq : q.decodes = false) (h : ∃ e, (∀ od sp, e ≠ .cfg od sp) ∧ Emits e s t) :
    ExecCase i s t := by
  obtain ⟨e, he, h⟩ := h
  exact .emits (hs ▸ hb) (hs ▸ hq) e (fun od sp hc => absurd hc (he od sp)) h

theorem ExecCase.of_goto {i : Instr} {s t : State} {q : Seq} (hi : s.seq = .idle) (hb : q ≠ .idle)
    (h : goto q s = .next t) : ExecCase i s t := by
  refine .starts hi ?_ (quiet_goto q _ _ h)
  rw [goto_next h]
  exact hb

theorem ExecCase.of_decode {i : Instr} {s t : State} (hq : s.seq.decodes = true)
    (h : decodeTempNow (goto .idle) s = .next t) : ExecCase i s t := by
  obtain ⟨raw, hr, h⟩ := decodeTempNow_next h
  exact .decodes hq raw hr (goto_next h)

theorem sendCommand_case {i : Instr} {k : SentCommand} {s t : State} (h : sendCommand k s = .next t) :
    ExecCase i s t := by
  unfold sendCommand at h
  split at h
  · exact .of_goto ‹_› (by simp) (acceptInternal_next h).2.2
  · split at h
    · exact .of_drives ‹_› (by simp) rfl (emits_sendByte (quiet_goto _) h)
    · cases h
  · cases h

/-- search-ROM is refused, whatever the state (R148). -/
theorem execCmdSearchRom_refused (s : State) : ∃ r, execCmdSearchRom s = .refused r := by
  unfold execCmdSearchRom acceptInternal acceptConfigured
  split
  · split
    · split <;> exact ⟨_, rfl⟩
    · exact ⟨_, rfl⟩
  · exact ⟨_, rfl⟩

theorem execCmdSearchRom_stops (s t : State) : execCmdSearchRom s ≠ .next t := by
  obtain ⟨r, h⟩ := execCmdSearchRom_refused s
  rw [h]
  exact nofun

theorem exec_next {i : Instr} {s t : State} (h : exec i s = .next t) : ExecCase i s t := by
  cases i with
  | init =>
    simp only [exec, execInit] at h
    split at h
    · exact .of_goto ‹_› (by simp) h
    · rename_i hs
      obtain ⟨hp, h⟩ := emit_next h
      refine .emits (by simp [hs]) (by simp [hs, Seq.decodes]) _ ?_
        (emits_of_quiet hp rfl (quiet_goto _ _ _ h))
      rintro od sp ⟨⟩
      exact ⟨rfl, rfl, rfl⟩
    · cases h
  | writeBit b =>
    simp only [exec, execWriteBit] at h
    split at h
    · have h := goto_next (acceptInternal_next h).2.2
      exact .starts ‹_› (by simp [h]) (by rw [h]; exact ⟨rfl, rfl, rfl, rfl, rfl, rfl, rfl, rfl, rfl, rfl⟩)
    · obtain ⟨b, -, h⟩ := readReg_next h
      exact .of_drives ‹_› (by simp) rfl (emits_writeSlot (quiet_goto _) h)
    · cases h
  | readBit =>
    simp only [exec, execReadBit] at h
    split at h
    · exact .of_goto ‹_› (by simp) (acceptInternal_next h).2.2
    · exact .of_reads ‹_› (by simp) rfl (emits_readSlot (quiet_goto _) h)
    · cases h
  | writeByte v =>
    simp only [exec, execWriteByte] at h
    split at h
    · have h := goto_next (acceptInternal_next h).2.2
      exact .starts ‹_› (by simp [h]) (by rw [h]; exact ⟨rfl, rfl, rfl, rfl, rfl, rfl, rfl, rfl, rfl, rfl⟩)
    · exact .of_drives ‹_› (by simp) rfl (emits_byteFrame (quiet_goto _) h)
    · cases h
  | readByte =>
    simp only [exec, execReadByte] at h
    split at h
    · exact .of_goto ‹_› (by simp) (acceptInternal_next h).2.2
    · exact .of_reads ‹_› (by simp) rfl (emits_readByteFrame (quiet_goto _) h)
    · cases h
  | reset =>
    simp only [exec, execReset] at h
    split at h
    · exact .of_goto ‹_› (by simp) (acceptInternal_next h).2.2
    · exact .of_drives ‹_› (by simp) rfl (emits_resetPulse (quiet_goto _) h)
    · cases h
  | waitConv =>
    simp only [exec, execWaitConv] at h
    split at h
    · exact .of_goto ‹_› (by simp) (acceptInternal_next h).2.2
    · exact .of_reads ‹_› (by simp) rfl (emits_pollOnce (quiet_goto _) h)
    · exact .of_reads ‹_› (by simp) rfl (emits_pollDelay h)
    · cases h
  | acc16 =>
    simp only [exec, execAcc16] at h
    split at h
    · exact .of_goto ‹_› (by simp) (acceptInternal_next h).2.2
    · exact .of_reads ‹_› (by simp) rfl (emits_acc16Frame (quiet_goto _) h)
    · cases h
  | decodeTemp =>
    simp only [exec, execDecodeTemp] at h
    split at h
    · have h := (acceptInternal_next h).2.2
      split at h
      · exact .of_goto ‹_› (by simp) h
      · cases h
    · rename_i hs
      exact .of_decode (by simp [hs, Seq.decodes]) h
    · cases h
  | acc64 =>
    simp only [exec, execAcc64] at h
    split at h
    · exact .of_goto ‹_› (by simp) (acceptInternal_next h).2.2
    · exact .of_reads ‹_› (by simp) rfl (emits_acc64Frame (quiet_goto _) h)
    · cases h
  | getTemperature =>
    simp only [exec, execGetTemperature] at h
    split at h
    · exact .of_goto ‹_› (by simp) (acceptConfigured_next h).2
    · exact .of_drives ‹_› (by simp) rfl (emits_resetPulse (quiet_goto _) h)
    · exact .of_drives ‹_› (by simp) rfl (emits_sendByte (quiet_goto _) h)
    · exact .of_drives ‹_› (by simp) rfl (emits_sendByte (quiet_goto _) h)
    · exact .of_reads ‹_› (by simp) rfl (emits_pollOnce (quiet_goto _) h)
    · exact .of_reads ‹_› (by simp) rfl (emits_pollDelay h)
    · exact .of_drives ‹_› (by simp) rfl (emits_resetPulse (quiet_goto _) h)
    · exact .of_drives ‹_› (by simp) rfl (emits_sendByte (quiet_goto _) h)
    · exact .of_drives ‹_› (by simp) rfl (emits_sendByte (quiet_goto _) h)
    · exact .of_reads ‹_› (by simp) rfl (emits_acc16Frame (quiet_goto _) h)
    · rename_i hs
      exact .of_decode (by simp [hs, Seq.decodes]) h
    · cases h
  | getSerialNumber =>
    simp only [exec, execGetSerialNumber] at h
    split at h
    · exact .of_goto ‹_› (by simp) (acceptConfigured_next h).2
    · exact .of_drives ‹_› (by simp) rfl (emits_resetPulse (quiet_goto _) h)
    · exact .of_drives ‹_› (by simp) rfl (emits_sendByte (quiet_goto _) h)
    · exact .of_reads ‹_› (by simp) rfl (emits_acc64Frame (quiet_goto _) h)
    · cases h
  | cmdSkipRom => exact sendCommand_case h
  | cmdSearchRom => exact absurd h (execCmdSearchRom_stops s t)
  | cmdReadRom => exact sendCommand_case h
  | cmdConvertT => exact sendCommand_case h
  | cmdReadScratchpad => exact sendCommand_case h

end Sys2Proof.Machine
end

