-- ==== Sys2Proof/Certificates/Slice0/Obligations.lean ====
section
/-! DEFINITION. The statements for the provers. Each is about every state its premises admit, whether a
run reaches it or not, and about every setting of the parameters, every environment and every host. -/

open Sys2Proof Sys2Proof.Machine

/-! ## Reset -/

/-- R221, R49: the state after a hardware reset, and that nothing happens until the host starts an
operation. `PIN_OUT` and `PIN_DIR` are unspecified there, so nothing is said of them (log 3); a register
that holds no value is `none` (log 2). -/
def Obligations.ResetState : Prop :=
  State.reset.sign = .plus ∧ State.reset.seq = .idle ∧ State.reset.bitcnt = 0 ∧
  State.reset.slot = 0 ∧ State.reset.configured = false ∧ State.reset.bit = none ∧
  State.reset.byte = none ∧ State.reset.raw = none ∧ State.reset.temp = none ∧
  State.reset.serial = none ∧ State.reset.trace = [] ∧ step State.reset = .next State.reset

/-- R221, R222, R235, R236, P5: the hardware reset, asserted at any time, idle or busy: no event, no
result, the state of R221, an operation in progress abandoned with the pin as the last event left it.
While idle the pin is unspecified (R221), so nothing is said of it (log 3). That the host's later moves,
the environment, the counter and the parameters stay, being no state of OWM, is the model's choice (log 1,
log 4, log 5). -/
def Obligations.HardResetAbandonsOperation : Prop :=
  ∀ (s : State) (h : List HostMove), s.host = .hardReset :: h →
    ∃ (level : Bit) (dir : PinDir),
      step s = .next { State.reset with
        pinOut := level, pinDir := dir, params := s.params, env := s.env,
        draws := s.draws + 1, host := h, trace := s.trace } ∧
      (s.busy = true → level = s.pinOut ∧ dir = s.pinDir)

/-- The invariant holds at reset. -/
def Obligations.InvariantAtReset : Prop := Inv State.reset

/-! ## The invariant and what follows from it -/

/-- Every step keeps the invariant: the control position in its ranges (R31, R33, R34), the pin pulled
low and turned to input only where a slot has it so (R39, R102, R106), a value in every register a phase
is going to read (R48), the byte being sent the phase's command code (R83). -/
def Obligations.StepKeepsInvariant : Prop := ∀ s t : State, Inv s → step s = .next t → Inv t

/-- R48, R190, R40: from a state that meets the invariant no step faults, and a step is refused only
when OWM is idle and the host presents a request; so nothing stops an operation in progress. -/
def Obligations.NothingStopsAnOperation : Prop :=
  ∀ s : State, Inv s →
    (∀ f, step s ≠ .fault f) ∧
    (s.busy = true → ∃ t, step s = .next t) ∧
    (∀ r, step s = .refused r →
      ∃ w h, s.host = .request w :: h ∨ s.host = .requestNow w :: h)

/-- R39: the resting pin: whenever OWM is configured and idle it drives nothing and is an output. Every
operation's last event restores it, whatever it was before. -/
def Obligations.EndOfOperationRestoresPin : Prop :=
  ∀ s t : State, Inv s → s.busy = true → s.host.head? ≠ some .hardReset → step s = .next t →
    t.seq = .idle → t.configured = true ∧ t.pinDir = .output ∧ t.pinOut = true ∧ t.pullsLow = false

/-! ## Steps -/

/-- A step runs the decoded instruction: a request presented while idle is decoded, taken off the
host's list and run (R88). The list of moves is the model's choice (log 4). -/
def Obligations.StepRunsRequestedInstruction : Prop :=
  ∀ (s : State) (w : CommandWord) (h : List HostMove) (i : Instr), s.seq = .idle →
    s.host = .request w :: h ∨ s.host = .requestNow w :: h →
    decode s.params.codes w = .ok i → step s = exec i { s with host := h }

/-- While busy a step takes the next step of the instruction in progress, and a request that keeps to
R233 waits; while idle and with nothing asked, OWM waits (R31, R35, R221). The list of moves is the
model's choice (log 4). -/
def Obligations.StepCarriesOn : Prop :=
  ∀ s : State, s.HostWaits →
    (∀ i, s.current = some i → step s = exec i s) ∧
    (s.seq = .idle → s.host = [] → step s = .next s) ∧
    (s.current = none ↔ s.seq = .idle)

/-- R12, R37, R38, R39, R41, R43: a step of a busy OWM, but for `DECODE_TEMP`, emits exactly one event;
the pin, `CONFIGURED` and the environment change as that event says and in no other way. That the sampled
bit is in `BIT` from the sample on is the model's choice (log 10). -/
def Obligations.OneEventPerBusyStep : Prop :=
  ∀ s t : State, s.busy = true → s.seq ≠ .t8 → s.seq ≠ .x .decodeTemp →
    s.host.head? ≠ some .hardReset → step s = .next t →
    ∃ e, t.trace = s.trace ++ [e] ∧
      (match e with
       | .cfg od sp => od = true ∧ sp = s.params.pinSpeed ∧ t.configured = true ∧
           t.pinDir = .output ∧ t.pinOut = true
       | .low => s.pinDir = .output ∧ t.pinOut = false ∧ t.pinDir = s.pinDir ∧
           t.configured = s.configured
       | .high => s.pinDir = .output ∧ t.pinOut = true ∧ t.pinDir = s.pinDir ∧
           t.configured = s.configured
       | .dirIn => t.pinDir = .input ∧ t.pinOut = s.pinOut ∧ t.configured = s.configured
       | .dirOut => t.pinDir = .output ∧ t.pinOut = s.pinOut ∧ t.configured = s.configured
       | .smp b => s.pinDir = .input ∧ b = nextSample s ∧ t.bit = some b ∧ t.pinOut = s.pinOut ∧
           t.pinDir = s.pinDir ∧ t.configured = s.configured
       | .dlyUs _ | .dlyMs _ => t.pinOut = s.pinOut ∧ t.pinDir = s.pinDir ∧
           t.configured = s.configured) ∧
      (t.env, t.draws) =
        (if e = .smp (nextSample s) then ((dropSample s).env, (dropSample s).draws)
         else (s.env, s.draws))

/-- R12, R31, R168: a step that starts an operation, one of `DECODE_TEMP`, and one of an idle OWM with
nothing to do emit no event and leave the pin and the environment alone. That an acceptance is a step of
its own is the model's choice (log 4). -/
def Obligations.NoEventOtherwise : Prop :=
  ∀ s t : State, s.seq = .idle ∨ s.seq = .t8 ∨ s.seq = .x .decodeTemp →
    s.host.head? ≠ some .hardReset → step s = .next t →
    t.trace = s.trace ∧ t.pinOut = s.pinOut ∧ t.pinDir = s.pinDir ∧
    t.configured = s.configured ∧ t.env = s.env ∧ t.draws = s.draws

/-- R66, D36: no step writes a parameter: the command codes and the delays are constants. -/
def Obligations.ParametersNeverChange : Prop :=
  ∀ s t : State, step s = .next t → t.params = s.params

/-- R27: `SIGN` is written by `DECODE_TEMP` and by nothing else (but the hardware reset, R221), and so
is `TEMP`. -/
def Obligations.OnlyDecodeTempWritesSignAndTemp : Prop :=
  ∀ s t : State, step s = .next t → s.host.head? ≠ some .hardReset →
    s.seq ≠ .t8 → s.seq ≠ .x .decodeTemp → t.sign = s.sign ∧ t.temp = s.temp

/-- R27, R47, R149: no operation reads `SIGN` or `TEMP`: whatever they hold, a step does the same to
everything else, `DECODE_TEMP` writes the same new values to the two, and any other step leaves them. -/
def Obligations.SignAndTempInfluenceNothing : Prop :=
  ∀ (s t : State) (g : Sign) (d : Option Half), s.host.head? ≠ some .hardReset →
    step s = .next t →
    ∃ t', step { s with sign := g, temp := d } = .next t' ∧
      { t' with sign := t.sign, temp := t.temp } = t ∧
      (s.seq = .t8 ∨ s.seq = .x .decodeTemp → t'.sign = t.sign ∧ t'.temp = t.temp) ∧
      (s.seq ≠ .t8 → s.seq ≠ .x .decodeTemp → t'.sign = g ∧ t'.temp = d)

/-- R63, R66, R233: an instruction never consumes, reorders or adds a host move, never writes a parameter,
and adds one event to the trace or none: nothing is reordered, merged or dropped. The list of moves is the
model's choice (log 4). -/
def Obligations.OperationsLeaveHostQueue : Prop :=
  ∀ (i : Instr) (s t : State), exec i s = .next t → t.host = s.host ∧ t.params = s.params ∧
    (t.trace = s.trace ∨ ∃ e, t.trace = s.trace ++ [e])

/-! ## Refusals -/

/-- R198, R201: a request made while OWM is busy is refused and the running operation is not disturbed:
the step is the one OWM takes when the host makes no move. That such a request is dropped is the model's
choice (log 4). -/
def Obligations.RequestWhileBusyIsWithoutEffect : Prop :=
  ∀ (s : State) (w : CommandWord) (h : List HostMove), s.busy = true →
    step { s with host := .requestNow w :: h } = step { s with host := .pass :: h }

/-- R198: an operation asked of an OWM that runs another is refused. `WRITE_BIT` and `WRITE_BYTE` are
one operation each, whatever their operand. That an instruction in progress is resumed by `exec` is the
model's choice (log 4). -/
def Obligations.OtherOperationRefusedWhileBusy : Prop :=
  ∀ (s : State) (i j : Instr), s.current = some j → i ≠ j →
    (∀ b c, ¬(i = .writeBit b ∧ j = .writeBit c)) →
    (∀ v w, ¬(i = .writeByte v ∧ j = .writeByte w)) → exec i s = .refused .busy

/-- R225: while `CONFIGURED = 0` a request for any operation other than `INIT` is refused. -/
def Obligations.UnconfiguredRefused : Prop :=
  ∀ (s : State) (i : Instr), s.seq = .idle → s.configured = false → i ≠ .init →
    (i.isPublic = true → exec i s = .refused .notConfigured) ∧ ∃ r, exec i s = .refused r

/-- R89: a request with an internal code is refused unless `EXPOSE_INTERNAL_OPS` is true; with it true,
`DECODE_TEMP` run alone is refused if `RAW` holds no value, and every other is accepted. That the command
codes count among the internal operations is the model's choice (log 8); of them search-ROM is refused in
any case, since no operation sends it (R148). -/
def Obligations.InternalOperationsGated : Prop :=
  ∀ (s : State) (i : Instr), s.seq = .idle → i.isPublic = false →
    (s.params.exposeInternalOps = false → exec i s = .refused .notExposed) ∧
    (s.params.exposeInternalOps = true → s.configured = true →
      (i = .decodeTemp ∧ s.raw = none → exec i s = .refused .rawHoldsNoValue) ∧
      (i = .cmdSearchRom → exec i s = .refused .neverSent) ∧
      (i ≠ .cmdSearchRom → i ≠ .decodeTemp ∨ s.raw ≠ none →
        ∃ t, exec i s = .next t ∧ t.busy = true))

/-- R90: a request with a reserved code `0xC` to `0xF` is refused, whatever its operand. -/
def Obligations.ReservedCodeRefused : Prop :=
  ∀ (s : State) (op : BitVec 4) (arg : Byte) (h : List HostMove), s.seq = .idle → 12 ≤ op.toNat →
    s.host = .request (.cw (op ++ arg)) :: h ∨ s.host = .requestNow (.cw (op ++ arg)) :: h →
    step s = .refused (.reservedCode op)

/-! ## Encodings -/

/-- Words written out from R76 and R86 decode to what they stand for. -/
def Obligations.SpecWordsDecode : Prop :=
  decodeHost 0b000000000000 = .ok .init ∧ decodeHost 0b000100000001 = .ok (.writeBit true) ∧
  decodeHost 0b000111111110 = .ok (.writeBit false) ∧
  decodeHost 0b001111001100 = .ok (.writeByte 0xCC) ∧ decodeHost 0b010100000000 = .ok .reset ∧
  decodeHost 0b101001011010 = .ok .getTemperature ∧
  decodeHost 0b101100000000 = .ok .getSerialNumber ∧
  decodeWire CommandCodes.default 0b01000100 = .ok .cmdConvertT ∧
  decodeWire CommandCodes.default 0b10111110 = .ok .cmdReadScratchpad

/-- Decoding the encoding of a well-formed instruction gives it back, for every instruction, every
operand and every setting of the command codes. -/
def Obligations.DecodeOfEncode : Prop :=
  ∀ (c : CommandCodes) (i : Instr), i.WellFormed c → decode c (encode c i) = .ok i

/-- R85, R87: the operation of a host word is `CW[11:8]` alone; `ARG` is read by `WRITE_BIT` (bit 0) and
`WRITE_BYTE` (all of it) and by nothing else. -/
def Obligations.ArgReadOnlyByWrites : Prop :=
  ∀ (op : BitVec 4) (a b : Byte),
    (op ≠ 1 → op ≠ 3 → decodeHost (op ++ a) = decodeHost (op ++ b)) ∧
    decodeHost ((1 : BitVec 4) ++ a) = .ok (.writeBit (a.getLsbD 0)) ∧
    decodeHost ((3 : BitVec 4) ++ a) = .ok (.writeByte a)

/-- R10, R77: with distinct command codes a byte is a command exactly when it is one of the five, and it
is that one. -/
def Obligations.CommandBytesNameThemselves : Prop :=
  ∀ c : CommandCodes, c.WellFormed →
    (∀ k, decode c (.code (c.code k)) = .ok (Instr.ofCommand k)) ∧
    (∀ b i, decode c (.code b) = .ok i → ∃ k, b = c.code k ∧ i = Instr.ofCommand k)

/-! ## What each operation does

From a state that meets R228's premises the operation is accepted, and the steps that follow lead to the
state shown, in which everything not named is as it was: the whole effect and the whole frame. The model's
choices in all of them: an acceptance is a step of its own, with no event, and the host's moves are a list
(log 4); the answers of the environment are a list (log 5); `WRITE_BIT` and `WRITE_BYTE` have their
operand
in its register from the acceptance on (log 10). -/

/-- R150, R151, R38: `INIT`, from any idle state, configured or not. Acceptance as in log 4. -/
def Obligations.InitConfiguresPin : Prop :=
  ∀ s : State, s.seq = .idle → s.bitcnt = 0 → s.slot = 0 → s.HostWaits →
    exec .init s = .next { s with seq := .i0 } ∧
    Runs 1 { s with seq := .i0 } { s with
      configured := true, pinDir := .output, pinOut := true
      trace := s.trace ++ [.cfg true s.params.pinSpeed] }

/-- R100, R71, R103: `WRITE_BIT b`: four events, the short hold for 1 and the long one for 0. Acceptance
as in log 4, operand as in log 10. -/
def Obligations.WriteBitSendsOneSlot : Prop :=
  ∀ (s : State) (b : Bit), s.Bench → s.HostWaits →
    exec (.writeBit b) s = .next { s with seq := .x .writeBit, bit := some b } ∧
    Runs 4 { s with seq := .x .writeBit, bit := some b } { s with
      bit := some b
      trace := s.trace ++ trWriteBit s.params.timing b }

/-- R104, R72, R108: `READ_BIT`: eight events, one sample, and the sampled level unchanged in `BIT`,
whatever the environment answers. Acceptance as in log 4. -/
def Obligations.ReadBitReturnsSample : Prop :=
  ∀ s : State, s.Bench → s.HostWaits →
    exec .readBit s = .next { s with seq := .x .readBit } ∧
    Runs 8 { s with seq := .x .readBit } { dropSamples 1 s with
      bit := some (nextSample s)
      trace := s.trace ++ trReadBit s.params.timing (nextSample s) }

/-- R120, R74, R121: `WRITE_BYTE v`: forty events, eight slots least-significant bit first, a gap after
each; `BYTE` keeps `v`, `BIT` is left at `v[7]`. Acceptance as in log 4, operand as in log 10. -/
def Obligations.WriteByteSendsFrame : Prop :=
  ∀ (s : State) (v : Byte), s.Bench → s.HostWaits →
    exec (.writeByte v) s = .next { s with seq := .x .writeByte, byte := some v } ∧
    Runs 40 { s with seq := .x .writeByte, byte := some v } { s with
      byte := some v, bit := some (v.getLsbD 7)
      trace := s.trace ++ trWriteByte s.params.timing v }

/-- R125, R75, R80: `READ_BYTE`: sixty-four events, eight samples, the byte they spell. Acceptance as in
log 4. -/
def Obligations.ReadByteAssemblesSamples : Prop :=
  ∀ s : State, s.Bench → s.HostWaits →
    exec .readByte s = .next { s with seq := .x .readByte } ∧
    Runs 64 { s with seq := .x .readByte } { dropSamples 8 s with
      byte := some (BitVec.ofNat 8 (lsbValue (answers 8 s))), bit := (answers 8 s).getLast?
      trace := s.trace ++ trRead s.params.timing (answers 8 s) }

/-- R136, R73, R137: `RESET`: four events, no sample, no change of direction, no result. Acceptance as
in log 4. -/
def Obligations.BusResetPulse : Prop :=
  ∀ s : State, s.Bench → s.HostWaits →
    exec .reset s = .next { s with seq := .x .reset } ∧
    Runs 4 { s with seq := .x .reset } { s with trace := s.trace ++ trReset s.params.timing }

/-- R138, R140: `WAIT_CONV` ends at the first sample that is 1, after `9k + 8` events where `k` is the
number of zeros before it. Acceptance as in log 4. -/
def Obligations.WaitConvEndsAtFirstOne : Prop :=
  ∀ (s : State) (k : Nat), s.Bench → s.HostWaits →
    answers (k + 1) s = List.replicate k false ++ [true] →
    exec .waitConv s = .next { s with seq := .x .waitConv } ∧
    Runs (9 * k + 8) { s with seq := .x .waitConv } { dropSamples (k + 1) s with
      bit := some true, trace := s.trace ++ trWait s.params.timing k }

/-- R165, R166, R167: `ACC16`: sixteen slots and no seventeenth, `RAW` the value the samples spell, not
depending on what it held. Acceptance as in log 4. -/
def Obligations.Acc16AssemblesRaw : Prop :=
  ∀ s : State, s.Bench → s.HostWaits →
    exec .acc16 s = .next { s with seq := .x .acc16 } ∧
    Runs 128 { s with seq := .x .acc16 } { dropSamples 16 s with
      raw := some (BitVec.ofNat 16 (lsbValue (answers 16 s))), bit := (answers 16 s).getLast?
      trace := s.trace ++ trRead s.params.timing (answers 16 s) }

/-- R175, R176: `ACC64`: sixty-four slots, `SERIAL` the value the samples spell, at 64 bits. Acceptance
as in log 4. -/
def Obligations.Acc64AssemblesSerial : Prop :=
  ∀ s : State, s.Bench → s.HostWaits →
    exec .acc64 s = .next { s with seq := .x .acc64 } ∧
    Runs 512 { s with seq := .x .acc64 } { dropSamples 64 s with
      serial := some (BitVec.ofNat 64 (lsbValue (answers 64 s))), bit := (answers 64 s).getLast?
      trace := s.trace ++ trRead s.params.timing (answers 64 s) }

/-- R168, R169, R170, R171: `DECODE_TEMP`, for every one of the 65536 values of `RAW`: the sign by the
whole top nibble, the one's complement of a negative reading, tenths of a degree rounded down. No event,
`RAW` unchanged. Acceptance as in log 4. -/
def Obligations.DecodeTempResult : Prop :=
  ∀ (s : State) (raw : Half), s.Bench → s.HostWaits → s.raw = some raw →
    exec .decodeTemp s = .next { s with seq := .x .decodeTemp } ∧
    Runs 1 { s with seq := .x .decodeTemp } { s with
      sign := if raw.toNat ≤ 0x0FFF then .plus else .minus
      temp := some (BitVec.ofNat 16
        (if raw.toNat ≤ 0x0FFF then raw.toNat * 10 / 16 else (0xFFFF - raw.toNat) * 10 / 16)) }

/-- R170, R173: the laws of the reading: `TEMP` is the integer part of `10 v / 16` and loses nothing to
its width, it stays in the ranges of R173, and a raw value and its one's complement have the same
magnitude with opposite signs. -/
def Obligations.DecodeTempLaws : Prop :=
  ∀ (s t : State) (raw temp : Half), s.seq = .t8 ∨ s.seq = .x .decodeTemp → s.raw = some raw →
    s.host.head? ≠ some .hardReset → step s = .next t → t.temp = some temp →
    (t.sign = .plus ↔ raw.toNat ≤ 0x0FFF) ∧
    (t.sign = .plus → 16 * temp.toNat ≤ 10 * raw.toNat ∧
      10 * raw.toNat < 16 * (temp.toNat + 1) ∧ temp.toNat ≤ 2559) ∧
    (t.sign = .minus → 16 * temp.toNat ≤ 10 * (0xFFFF - raw.toNat) ∧
      10 * (0xFFFF - raw.toNat) < 16 * (temp.toNat + 1) ∧ temp.toNat ≤ 38399) ∧
    (raw.toNat ≤ 0x0FFF → ∃ t', step { s with raw := some (~~~raw) } = .next t' ∧
      t'.temp = some temp ∧ t'.sign = .minus)

/-- R141, R142, R143: `GET_TEMPERATURE` whose wait reads `k` zeros and then a one: `304 + 9k` events and
`k + 17` samples, and the reading of R168 of the last sixteen of them. Acceptance as in log 4. -/
def Obligations.GetTemperatureRun : Prop :=
  ∀ (s : State) (k raw : Nat), s.Ready → s.HostWaits →
    answers (k + 1) s = List.replicate k false ++ [true] →
    raw = lsbValue (answers 16 (dropSamples (k + 1) s)) →
    exec .getTemperature s = .next { s with seq := .t0 } ∧
    Runs (304 + 9 * k + 1) { s with seq := .t0 } { dropSamples (k + 17) s with
      byte := some s.params.codes.readScratchpad
      bit := (answers 16 (dropSamples (k + 1) s)).getLast?
      raw := some (BitVec.ofNat 16 raw)
      sign := if raw ≤ 0x0FFF then .plus else .minus
      temp := some (BitVec.ofNat 16
        (if raw ≤ 0x0FFF then raw * 10 / 16 else (0xFFFF - raw) * 10 / 16))
      trace := s.trace ++
        trGetTemperature s.params k (answers 16 (dropSamples (k + 1) s)) }

/-- R146, R147: `GET_SERIAL_NUMBER`: 556 events, 64 samples, `SERIAL` the value they spell; `SIGN`,
`RAW` and `TEMP` unchanged. Acceptance as in log 4. -/
def Obligations.GetSerialNumberRun : Prop :=
  ∀ s : State, s.Ready → s.HostWaits →
    exec .getSerialNumber s = .next { s with seq := .s0 } ∧
    Runs 556 { s with seq := .s0 } { dropSamples 64 s with
      byte := some s.params.codes.readRom
      bit := (answers 64 s).getLast?
      serial := some (BitVec.ofNat 64 (lsbValue (answers 64 s)))
      trace := s.trace ++ trGetSerialNumber s.params (answers 64 s) }

/-- R76, R84: a command code is sent as one byte frame: for each of `CMD_SKIP_ROM`, `CMD_READ_ROM`,
`CMD_CONVERT_T` and `CMD_READ_SCRATCHPAD` run alone, as `WRITE_BYTE` of its code. That one can be run alone
is the model's own (log 8). `CMD_SEARCH_ROM` is never sent: `Obligations.SearchRomIsNeverSent`. -/
def Obligations.CommandCodesSentAsByteFrames : Prop :=
  ∀ (s : State) (i : Instr) (k : SentCommand), i.command? = some k.toCommand → s.Bench → s.HostWaits →
    exec i s = .next { s with seq := .x (.command k) } ∧
    Runs 40 { s with seq := .x (.command k) } { s with
      byte := some (s.params.codes.code k.toCommand)
      bit := some ((s.params.codes.code k.toCommand).getLsbD 7)
      trace := s.trace ++ trWriteByte s.params.timing (s.params.codes.code k.toCommand) }

/-! ## Runs that never end -/

/-- R139, R194: a `GET_TEMPERATURE` whose polls all read 0 never ends: after any number of steps OWM is
busy with it, `TEMP`, `SIGN`, `RAW` and `SERIAL` are what they were, and every step goes on. -/
def Obligations.EndlessWait : Prop :=
  ∀ s : State, s.Ready → s.HostWaits → (∀ m, answers m s = List.replicate m false) →
    ∀ n, ∃ t, Runs n { s with seq := .t0 } t ∧ t.current = some .getTemperature ∧
      t.seq ≠ .t4 ∧ t.seq ≠ .t8 ∧
      t.temp = s.temp ∧ t.sign = s.sign ∧ t.raw = s.raw ∧ t.serial = s.serial ∧
      (84 ≤ n → t.seq = .t3 ∨ t.seq = .t3d)

/-! ## Frames (R47): what each operation leaves unchanged, at every one of its steps -/

/-- The frame of `INIT` (R27, R47, R150). -/
def Obligations.InitFrame : Prop :=
  ∀ s t : State, exec .init s = .next t →
    t.sign = s.sign ∧ t.bit = s.bit ∧ t.byte = s.byte ∧ t.raw = s.raw ∧ t.temp = s.temp ∧
    t.serial = s.serial ∧ t.params = s.params ∧ t.env = s.env ∧ t.draws = s.draws ∧ t.host = s.host

/-- The frame of the operations that only write to the line, `WRITE_BIT`, `WRITE_BYTE`, `RESET` and the
command codes (R47, R100, R120, R136): no sample, no change of direction. In progress `WRITE_BIT` only
reads `BIT` and `WRITE_BYTE` only reads `BYTE`, as R47 says; that their acceptance puts the operand there
is the model's choice (log 10), and so is that a command code can be run alone (log 8). -/
def Obligations.WritingOperationsFrame : Prop :=
  ∀ (i : Instr) (s t : State),
    (∃ b, i = .writeBit b) ∨ (∃ v, i = .writeByte v) ∨ i = .reset ∨ i.command? ≠ none →
    exec i s = .next t →
    t.sign = s.sign ∧ t.raw = s.raw ∧ t.temp = s.temp ∧ t.serial = s.serial ∧
    t.pinDir = s.pinDir ∧ t.configured = s.configured ∧ t.params = s.params ∧ t.env = s.env ∧
    t.draws = s.draws ∧ t.host = s.host ∧
    (i = .reset → t.bit = s.bit ∧ t.byte = s.byte) ∧
    (∀ b, i = .writeBit b → t.byte = s.byte ∧ (s.busy = true → t.bit = s.bit)) ∧
    (∀ v, i = .writeByte v → s.busy = true → t.byte = s.byte)

/-- The frame of the operations that read the line, `READ_BIT`, `READ_BYTE`, `WAIT_CONV`, `ACC16` and
`ACC64` (R47): each writes `BIT`, the pin and its own accumulator, and nothing else. -/
def Obligations.ReadingOperationsFrame : Prop :=
  ∀ (i : Instr) (s t : State),
    i = .readBit ∨ i = .readByte ∨ i = .waitConv ∨ i = .acc16 ∨ i = .acc64 →
    exec i s = .next t →
    t.sign = s.sign ∧ t.temp = s.temp ∧ t.configured = s.configured ∧ t.params = s.params ∧
    t.host = s.host ∧ (i ≠ .readByte → t.byte = s.byte) ∧ (i ≠ .acc16 → t.raw = s.raw) ∧
    (i ≠ .acc64 → t.serial = s.serial)

/-- The frame of `DECODE_TEMP` (R47, R168): it writes `TEMP` and `SIGN` and emits nothing. -/
def Obligations.DecodeTempFrame : Prop :=
  ∀ s t : State, exec .decodeTemp s = .next t →
    t.bit = s.bit ∧ t.byte = s.byte ∧ t.raw = s.raw ∧ t.serial = s.serial ∧ t.pinOut = s.pinOut ∧
    t.pinDir = s.pinDir ∧ t.configured = s.configured ∧ t.params = s.params ∧ t.env = s.env ∧
    t.draws = s.draws ∧ t.host = s.host ∧ t.trace = s.trace

/-- The frames of `GET_TEMPERATURE` and `GET_SERIAL_NUMBER` (R27, R47), and what becomes of `BYTE`: in a
phase that sends a command it holds that phase's own code, in any other phase it is untouched, and with
distinct codes (R10) it never becomes that of `CMD_SEARCH_ROM` (R83). -/
def Obligations.PublicOperationsFrame : Prop :=
  ∀ s t : State,
    (exec .getTemperature s = .next t →
      t.serial = s.serial ∧ t.configured = s.configured ∧ t.params = s.params ∧ t.host = s.host ∧
      (s.seq ≠ .t8 → t.sign = s.sign ∧ t.temp = s.temp) ∧ ByteFollowsPhase s t) ∧
    (exec .getSerialNumber s = .next t →
      t.sign = s.sign ∧ t.raw = s.raw ∧ t.temp = s.temp ∧ t.configured = s.configured ∧
      t.params = s.params ∧ t.host = s.host ∧ ByteFollowsPhase s t)

/-! ## Composition -/

/-- R92, P4: a `GET_TEMPERATURE` is its expansion: asked for one operation at a time, the nine of them
lead to the same state, trace included, as the one. The list of moves and the step an acceptance takes are
the model's choice (log 4). -/
def Obligations.GetTemperatureIsItsExpansion : Prop :=
  ∀ (s : State) (k : Nat), s.Bench → answers (k + 1) s = List.replicate k false ++ [true] →
    ∃ u : State,
      Runs (1 + (304 + 9 * k + 1)) { s with host := [.request (.cw 0xA00)] } u ∧
      Runs (9 + (304 + 9 * k + 1)) { s with host := [
        .request (.cw 0x500), .request (.cw ((3 : BitVec 4) ++ s.params.codes.skipRom)),
        .request (.cw ((3 : BitVec 4) ++ s.params.codes.convertT)), .request (.cw 0x600),
        .request (.cw 0x500), .request (.cw ((3 : BitVec 4) ++ s.params.codes.skipRom)),
        .request (.cw ((3 : BitVec 4) ++ s.params.codes.readScratchpad)), .request (.cw 0x700),
        .request (.cw 0x800)] } u

/-- R92: a `GET_SERIAL_NUMBER` is `RESET`, `WRITE_BYTE CMD_READ_ROM`, `ACC64` (moves and acceptances as in
log 4). -/
def Obligations.GetSerialNumberIsItsExpansion : Prop :=
  ∀ s : State, s.Bench →
    ∃ u : State,
      Runs (1 + 556) { s with host := [.request (.cw 0xB00)] } u ∧
      Runs (3 + 556) { s with host := [
        .request (.cw 0x500), .request (.cw ((3 : BitVec 4) ++ s.params.codes.readRom)),
        .request (.cw 0x900)] } u

/-- R56, R128: `ACC16` is two `READ_BYTE`s, low byte first: the same trace, the same samples, and
`RAW = zext_16(B0) | (zext_16(B1) << 8)`. -/
def Obligations.Acc16IsTwoReadBytes : Prop :=
  ∀ s : State, s.Bench →
    ∃ (u v w : State) (b0 b1 : Byte),
      Runs (1 + 128) { s with host := [.request (.cw 0x700)] } u ∧
      Runs (1 + 64) { s with host := [.request (.cw 0x400), .request (.cw 0x400)] } v ∧
      Runs (1 + 64) v w ∧ v.byte = some b0 ∧ w.byte = some b1 ∧
      u.raw = some (b0.setWidth 16 ||| (b1.setWidth 16 <<< 8)) ∧
      u.trace = w.trace ∧ u.env = w.env ∧ u.draws = w.draws ∧ u.bit = w.bit

/-- R81, R127, R176: the round trip: answered with the bits of a value, least-significant first,
`READ_BYTE`, `ACC16` and `ACC64` give the value. -/
def Obligations.ReadingReproducesTheValue : Prop :=
  ∀ s : State, s.Bench → s.HostWaits →
    (∀ v : Byte, answers 8 s = lsbBits v →
      ∃ t, Runs 64 { s with seq := .x .readByte } t ∧ t.seq = .idle ∧ t.byte = some v) ∧
    (∀ v : Half, answers 16 s = lsbBits v →
      ∃ t, Runs 128 { s with seq := .x .acc16 } t ∧ t.seq = .idle ∧ t.raw = some v) ∧
    (∀ v : Wide, answers 64 s = lsbBits v →
      ∃ t, Runs 512 { s with seq := .x .acc64 } t ∧ t.seq = .idle ∧ t.serial = some v)

/-- R122, R239: the delay an operation asks for in all, under a setting that meets R9. -/
def Obligations.RequestedDelays : Prop :=
  ∀ (s : State) (p : Timing), s.Ready → s.HostWaits → p = s.params.timing → p.WellFormed →
    (∀ v : Byte, ∃ t, Runs 40 { s with seq := .x .writeByte, byte := some v } t ∧ t.seq = .idle ∧
      requestedUs t.trace = requestedUs s.trace + 8 * (p.writeSlot + p.tGap) ∧
      requestedMs t.trace = requestedMs s.trace) ∧
    (∃ t, Runs 556 { s with seq := .s0 } t ∧ t.seq = .idle ∧
      requestedUs t.trace = requestedUs s.trace + (p.tRstLow + p.tRstWait
        + 8 * (p.writeSlot + p.tGap) + 64 * p.readSlot) ∧
      requestedMs t.trace = requestedMs s.trace) ∧
    (∀ k, answers (k + 1) s = List.replicate k false ++ [true] →
      ∃ t, Runs (304 + 9 * k + 1) { s with seq := .t0 } t ∧ t.seq = .idle ∧
      requestedUs t.trace = requestedUs s.trace + (2 * (p.tRstLow + p.tRstWait)
        + 32 * (p.writeSlot + p.tGap) + (k + 17) * p.readSlot) ∧
      requestedMs t.trace = requestedMs s.trace + k * p.tConvPoll)

/-- R142, R146, R120: how many events a run emits and which samples it takes: 40 and none for a
`WRITE_BYTE`, 556 and 64 for a `GET_SERIAL_NUMBER`, `304 + 9k` and `k + 17` for a `GET_TEMPERATURE` whose
sample `k + 1` ends the wait, the sixteen after it being `RAW[0]` to `RAW[15]`. -/
def Obligations.RunSizes : Prop :=
  ∀ s : State, s.Ready → s.HostWaits →
    (∀ v : Byte, ∃ t, Runs 40 { s with seq := .x .writeByte, byte := some v } t ∧ t.seq = .idle ∧
      t.trace.length = s.trace.length + 40 ∧ samples t.trace = samples s.trace) ∧
    (∃ t, Runs 556 { s with seq := .s0 } t ∧ t.seq = .idle ∧
      t.trace.length = s.trace.length + 556 ∧
      samples t.trace = samples s.trace ++ answers 64 s) ∧
    (∀ k, answers (k + 1) s = List.replicate k false ++ [true] →
      ∃ t, Runs (304 + 9 * k + 1) { s with seq := .t0 } t ∧ t.seq = .idle ∧
      t.trace.length = s.trace.length + (304 + 9 * k) ∧
      samples t.trace = samples s.trace ++ answers (k + 17) s ∧
      t.raw = some (BitVec.ofNat 16 (lsbValue ((answers (k + 17) s).drop (k + 1)))))

/-! ## The host -/

/-- R29, R88, R237: what the host reads: nothing of `TEMP` and `SERIAL` while busy; the registers when the
operation has ended; `SIGN` at any time. That an unspecified value read is `none` is the model's choice
(log 2). -/
def Obligations.ResultsReadOnlyWhenIdle : Prop :=
  ∀ s : State, s.resSign = s.sign ∧
    (s.busy = true → s.resTemp = none ∧ s.resSerial = none) ∧
    (s.busy = false → s.resTemp = s.temp ∧ s.resSerial = s.serial)

/-- R232, R236: nothing but a hardware reset ends or shortens an operation, and the host has no move that
touches the pin: whatever the host does short of it, a step of a busy OWM leads where the operation
alone would. The list of moves is the model's choice (log 4). -/
def Obligations.HostCannotDisturb : Prop :=
  ∀ (s t : State) (h : List HostMove), s.busy = true → s.host = [] →
    h.head? ≠ some .hardReset → step s = .next t →
    ∃ h', step { s with host := h } = .next { t with host := h' }

/-! ## What is never sent -/

/-- R83, R148, D31: no operation sends `CMD_SEARCH_ROM`: asked for by itself it is refused whatever the
state, and in every byte frame of an operation, a lone `WRITE_BYTE` apart (it sends any byte it is given,
R84), the byte on its way is the phase's own command code, its bit `BYTE[BITCNT]` in `BIT`, and is not
search-ROM's, the codes being distinct (R10). -/
def Obligations.SearchRomIsNeverSent : Prop :=
  ∀ s : State,
    (∃ r, exec .cmdSearchRom s = .refused r) ∧
    (s.Bench → exec .cmdSearchRom s = .refused .neverSent) ∧
    (Inv s → s.params.codes.WellFormed → s.host.head? ≠ some .hardReset →
      s.seq.isByteFrame = true → s.seq ≠ .x .writeByte →
      ∃ (t : State) (k : SentCommand) (v : Byte), step s = .next t ∧ s.seq.sends = some k ∧
        v = s.params.codes.code k.toCommand ∧ v ≠ s.params.codes.searchRom ∧
        t.byte = some v ∧ t.bit = some (bitOfByte v s.bitcnt))
end

