-- ==== Sys2Proof/Laws/PerInstr.lean ====
section
/-! SUPPORT. One fact per instruction, about its word: the column "Public" of R86, read off the word.
A host word is public exactly when its operation code is `0x0`, `0xA` or `0xB`; a command code is no
public operation, and is the code of the command the instruction names (R76). -/

namespace Sys2Proof.Laws.Codes

open Sys2Proof

/-- What R86 says of the word a host word encodes. -/
abbrev ofHostWord (i : Instr) (w : HostWord) : Prop :=
  (HostWord.op w).toNat < 12 ∧ i.command? = none ∧
    (i.isPublic = true ↔
      (HostWord.op w).toNat = 0x0 ∨ (HostWord.op w).toNat = 0xA ∨ (HostWord.op w).toNat = 0xB)

/-- What R76 says of a command code. -/
def ofCode (c : CommandCodes) (i : Instr) (b : Byte) : Prop :=
  i.isPublic = false ∧ ∃ k, i.command? = some k ∧ Instr.ofCommand k = i ∧ b = c.code k

/-- The word of `i`, under every setting of the command codes. -/
def Statement (i : Instr) : Prop :=
  ∀ c : CommandCodes,
    match encode c i with
    | .cw w => ofHostWord i w
    | .code b => ofCode c i b

theorem init : Statement .init := fun _ =>
  (by decide : ofHostWord .init (hostWord 0x0 0))

theorem writeBit (b : Bit) : Statement (.writeBit b) := fun _ => by
  cases b
  · exact (by decide : ofHostWord (.writeBit false) (hostWord 0x1 0))
  · exact (by decide : ofHostWord (.writeBit true) (hostWord 0x1 1))

theorem readBit : Statement .readBit := fun _ =>
  (by decide : ofHostWord .readBit (hostWord 0x2 0))

theorem writeByte (v : Byte) : Statement (.writeByte v) := fun _ => by
  have h : HostWord.op (hostWord 0x3 v) = 0x3 := hostWord_op 0x3 v
  show ofHostWord (.writeByte v) (hostWord 0x3 v)
  unfold ofHostWord
  rw [h]
  exact ⟨by decide, rfl, by constructor <;> intro h <;> simp [Instr.isPublic] at h⟩

theorem readByte : Statement .readByte := fun _ =>
  (by decide : ofHostWord .readByte (hostWord 0x4 0))

theorem reset : Statement .reset := fun _ =>
  (by decide : ofHostWord .reset (hostWord 0x5 0))

theorem waitConv : Statement .waitConv := fun _ =>
  (by decide : ofHostWord .waitConv (hostWord 0x6 0))

theorem acc16 : Statement .acc16 := fun _ =>
  (by decide : ofHostWord .acc16 (hostWord 0x7 0))

theorem decodeTemp : Statement .decodeTemp := fun _ =>
  (by decide : ofHostWord .decodeTemp (hostWord 0x8 0))

theorem acc64 : Statement .acc64 := fun _ =>
  (by decide : ofHostWord .acc64 (hostWord 0x9 0))

theorem getTemperature : Statement .getTemperature := fun _ =>
  (by decide : ofHostWord .getTemperature (hostWord 0xA 0))

theorem getSerialNumber : Statement .getSerialNumber := fun _ =>
  (by decide : ofHostWord .getSerialNumber (hostWord 0xB 0))

theorem cmdSkipRom : Statement .cmdSkipRom := fun _ => ⟨rfl, .skipRom, rfl, rfl, rfl⟩

theorem cmdSearchRom : Statement .cmdSearchRom := fun _ => ⟨rfl, .searchRom, rfl, rfl, rfl⟩

theorem cmdReadRom : Statement .cmdReadRom := fun _ => ⟨rfl, .readRom, rfl, rfl, rfl⟩

theorem cmdConvertT : Statement .cmdConvertT := fun _ => ⟨rfl, .convertT, rfl, rfl, rfl⟩

theorem cmdReadScratchpad : Statement .cmdReadScratchpad :=
  fun _ => ⟨rfl, .readScratchpad, rfl, rfl, rfl⟩

end Sys2Proof.Laws.Codes
end

