-- ==== Sys2Proof/Tests/Slice0.lean ====
section
/-! SUPPORT. Tests: small facts about one step or one word, their expected results from the spec's tables
and vectors (95_test_vectors.md, the example setting E), and a witness for the hypotheses of every
obligation. Nothing here runs an operation. -/

namespace Sys2Proof.Tests

open Sys2Proof Sys2Proof.Machine

/-! ## Helpers -/

/-- The example setting E of 95_test_vectors.md. -/
def settingE : Timing where
  tW1Low := 6
  tW1Pad := 64
  tW0Low := 60
  tW0Pad := 10
  tRLow := 2
  tRSettle := 9
  tRRest := 50
  tGap := 2
  tRstLow := 480
  tRstWait := 480
  tConvPoll := 100

/-- The parameters of the tests; the pin speed is any number. -/
def paramsE : Params where
  timing := settingE
  codes := CommandCodes.default
  pinSpeed := 3
  exposeInternalOps := true

/-- An OWM that `INIT` has configured, idle, the line answering 1. -/
def bench : State where
  sign := .plus
  bit := none
  byte := none
  raw := none
  temp := none
  serial := none
  seq := .idle
  bitcnt := 0
  slot := 0
  pinOut := true
  pinDir := .output
  configured := true
  params := paramsE
  env := { given := [], after := .forever true }
  draws := 0
  host := []
  trace := []

/-- The same at event `slot` of the first frame of phase `q`. -/
def at_ (q : Seq) (slot : Nat) : State := { bench with seq := q, slot := slot }

/-- Its host about to ask for a word. -/
def asks (w : CommandWord) : State := { bench with host := [.request w] }

/-- The environment answers `bits`, and 1 after them. -/
def answering (bits : List Bit) : State := { bench with env := { given := bits, after := .forever true } }

/-- The next state, if there is one. -/
def next? : Result → Option State
  | .next t => some t
  | .fault _ => none
  | .refused _ => none

/-- The refusal, if there is one. -/
def refusal? : Result → Option Refusal
  | .next _ => none
  | .fault _ => none
  | .refused r => some r

/-- The fault, if there is one. -/
def fault? : Result → Option Fault
  | .next _ => none
  | .fault f => some f
  | .refused _ => none

/-- The last event of the next state. -/
def event? (r : Result) : Option Event := (next? r).bind fun t => t.trace.getLast?

/-- A successful decoding. -/
def instr? : Except DecodeError Instr → Option Instr
  | .ok i => some i
  | .error _ => none

/-! ## Well-formedness: each check refuses an ill-formed term (R9, R10) -/

theorem test_settingE_wf : Params.WellFormed paramsE := by decide

theorem test_short_hold_must_be_shorter :
    ¬ Timing.WellFormed { settingE with tW1Low := 60, tW1Pad := 10 } := by decide

theorem test_write_slots_must_be_equal : ¬ Timing.WellFormed { settingE with tW0Pad := 11 } := by
  decide

theorem test_codes_must_differ :
    ¬ CommandCodes.WellFormed { CommandCodes.default with searchRom := 0xCC } := by decide

theorem test_ambiguous_command_ill_formed :
    ¬ Instr.WellFormed { CommandCodes.default with searchRom := 0xCC } .cmdSearchRom := by
  intro h
  exact (h .searchRom rfl).1 (by decide) rfl

theorem test_host_words_well_formed (v : Byte) :
    Instr.WellFormed { CommandCodes.default with searchRom := 0xCC } (.writeByte v) := by
  rintro k ⟨⟩

/-! ## Decoding: a word of each operation, bit by bit (R76, R85 to R87, R90) -/

theorem test_decode_init : instr? (decodeHost 0b0000_00000000) = some .init := by decide
theorem test_decode_writeBit_1 : instr? (decodeHost 0b0001_00000001) = some (.writeBit true) := by
  decide
/-- V78: `0x1FE`, `ARG[7:1]` ignored. -/
theorem test_decode_writeBit_0 : instr? (decodeHost 0b0001_11111110) = some (.writeBit false) := by
  decide
theorem test_decode_readBit : instr? (decodeHost 0b0010_00000000) = some .readBit := by decide
theorem test_decode_writeByte : instr? (decodeHost 0b0011_11001100) = some (.writeByte 0xCC) := by
  decide
theorem test_decode_readByte : instr? (decodeHost 0b0100_00000000) = some .readByte := by decide
theorem test_decode_reset : instr? (decodeHost 0b0101_11111111) = some .reset := by decide
theorem test_decode_waitConv : instr? (decodeHost 0b0110_00000000) = some .waitConv := by decide
theorem test_decode_acc16 : instr? (decodeHost 0b0111_00000000) = some .acc16 := by decide
theorem test_decode_decodeTemp : instr? (decodeHost 0b1000_00000000) = some .decodeTemp := by decide
theorem test_decode_acc64 : instr? (decodeHost 0b1001_00000000) = some .acc64 := by decide
theorem test_decode_getTemperature :
    instr? (decodeHost 0b1010_01011010) = some .getTemperature := by decide
theorem test_decode_getSerialNumber :
    instr? (decodeHost 0b1011_00000000) = some .getSerialNumber := by decide
theorem test_decode_reserved :
    instr? (decodeHost 0b1100_00000000) = none ∧ instr? (decodeHost 0b1111_11111111) = none := by
  decide
theorem test_decode_skipRom :
    instr? (decodeWire CommandCodes.default 0b1100_1100) = some .cmdSkipRom := by decide
theorem test_decode_searchRom :
    instr? (decodeWire CommandCodes.default 0b1111_0000) = some .cmdSearchRom := by decide
theorem test_decode_readRom :
    instr? (decodeWire CommandCodes.default 0b0011_0011) = some .cmdReadRom := by decide
theorem test_decode_convertT :
    instr? (decodeWire CommandCodes.default 0b0100_0100) = some .cmdConvertT := by decide
theorem test_decode_readScratchpad :
    instr? (decodeWire CommandCodes.default 0b1011_1110) = some .cmdReadScratchpad := by decide
theorem test_decode_unknown_command :
    instr? (decodeWire CommandCodes.default 0b1011_1111) = none := by decide
theorem test_table_words :
    decodeTableWord 16 0x0B00 = some .getSerialNumber ∧ decodeTableWord 12 0x3CC = some (.writeByte 0xCC)
    ∧ decodeTableWord 8 0xF0 = some .cmdSearchRom ∧ decodeTableWord 16 0x1000 = none
    ∧ decodeTableWord 8 0x133 = none := by decide
theorem test_encode :
    encode CommandCodes.default (.writeByte 0xBE) = .cw 0x3BE ∧
    encode CommandCodes.default .cmdConvertT = .code 0x44 := by decide

/-! ## One step of each operation -/

/-- V65: `INIT` emits `Cfg(true, PIN_SPEED)` and ends. -/
theorem test_init_configures :
    (next? (step { at_ .i0 0 with configured := false, pinDir := .input, pinOut := false })).map
      (fun t => (t.trace, t.configured, t.pinDir, t.pinOut, t.seq)) =
    some ([.cfg true 3], true, .output, true, .idle) := by decide

/-- V40: a 1 is held for the short time. -/
theorem test_writeBit_hold_1 :
    event? (step { at_ (.x .writeBit) 1 with bit := some true, pinOut := false }) =
      some (.dlyUs 6) := by decide
/-- V41: a 0 is held for the long time. -/
theorem test_writeBit_hold_0 :
    event? (step { at_ (.x .writeBit) 1 with bit := some false, pinOut := false }) =
      some (.dlyUs 60) := by decide

/-- V42: the sample is the sixth event, and `BIT` is what was sampled. -/
theorem test_readBit_samples :
    (next? (step { at_ (.x .readBit) 5 with pinDir := .input })).map
      (fun t => (t.trace, t.bit, t.draws)) = some ([.smp true], some true, 1) := by decide
/-- V43: the eighth event restores the direction. -/
theorem test_readBit_restores :
    (next? (step { at_ (.x .readBit) 7 with pinDir := .input, bit := some false })).map
      (fun t => (t.trace, t.pinDir, t.bit, t.seq)) =
      some ([.dirOut], .output, some false, .idle) := by decide

/-- V47: the first slot of `0x01` carries bit 0, a 1. -/
theorem test_writeByte_lsb_first :
    (next? (step { at_ (.x .writeByte) 0 with byte := some 0x01 })).map
      (fun t => (t.trace, t.bit, t.byte)) = some ([.low], some true, some 0x01) := by decide
/-- R121: the gap follows the last bit too, and the operation ends after it. -/
theorem test_writeByte_last_gap :
    (next? (step { at_ (.x .writeByte) 4 with byte := some 0xCC, bitcnt := 7 })).map
      (fun t => (t.trace, t.seq, t.bitcnt, t.byte)) =
      some ([.dlyUs 2], .idle, 0, some 0xCC) := by decide

/-- `BYTE` is cleared before the first slot (R125). -/
theorem test_readByte_clears :
    (next? (step { at_ (.x .readByte) 0 with byte := some 0xFF })).map (fun t => t.byte) =
      some (some 0) := by decide
/-- The eighth bit goes to position 7 (R125). -/
theorem test_readByte_last_bit :
    (next? (step { at_ (.x .readByte) 7 with
      byte := some 0x28, bit := some true, bitcnt := 7, pinDir := .input })).map
      (fun t => (t.byte, t.seq)) = some (some 0xA8, .idle) := by decide

/-- V50: the pulse waits out `T_RST_WAIT` and takes no sample. -/
theorem test_reset_waits :
    (next? (step (at_ (.x .reset) 3))).map (fun t => (t.trace, t.seq, t.env)) =
      some ([.dlyUs 480], .idle, bench.env) := by decide
theorem test_reset_low :
    (next? (step (at_ (.x .reset) 0))).map (fun t => (t.trace, t.pullsLow)) =
      some ([.low], true) := by decide

/-- V51: a poll that reads 1 ends the wait. -/
theorem test_waitConv_ends_at_one :
    (next? (step { at_ (.x .waitConv) 7 with bit := some true, pinDir := .input })).map (·.seq) =
      some .idle := by decide
/-- V52: a poll that reads 0 is followed by the delay, in milliseconds. -/
theorem test_waitConv_goes_on_at_zero :
    (next? (step { at_ (.x .waitConv) 7 with bit := some false, pinDir := .input })).map (·.seq) =
      some (.x .waitDelay) ∧
    (next? (step (at_ (.x .waitDelay) 0))).map (fun t => (t.trace, t.seq)) =
      some ([.dlyMs 100], .x .waitConv) := by decide

/-- The sixteenth bit goes to position 15, and there is no seventeenth slot (R165, R166). -/
theorem test_acc16_last_bit :
    (next? (step { at_ (.x .acc16) 7 with
      raw := some 0x0190, bit := some true, bitcnt := 15, pinDir := .input })).map
      (fun t => (t.raw, t.seq)) = some (some 0x8190, .idle) := by decide
theorem test_acc16_goes_on :
    (next? (step { at_ (.x .acc16) 7 with
      raw := some 0, bit := some true, bitcnt := 4, pinDir := .input })).map
      (fun t => (t.raw, t.seq, t.bitcnt, t.slot)) = some (some 0x0010, .x .acc16, 5, 0) := by decide

/-- V2: one's complement, `0xFE6F` is 250 below zero. -/
theorem test_decodeTemp_negative :
    (next? (step { at_ (.x .decodeTemp) 0 with raw := some 0xFE6F })).map
      (fun t => (t.temp, t.sign, t.raw, t.trace, t.seq)) =
      some (some 250, .minus, some 0xFE6F, [], .idle) := by decide
/-- V11: the test is on the whole nibble, and the product needs 20 bits. -/
theorem test_decodeTemp_nibble :
    (next? (step { at_ .t8 0 with raw := some 0x1000 })).map (fun t => (t.temp, t.sign)) =
      some (some 38399, .minus) := by decide

/-- V64: the sixty-fourth bit goes to position 63: the shift is at 64 bits (R175). -/
theorem test_acc64_last_bit :
    (next? (step { at_ (.x .acc64) 7 with
      serial := some 0, bit := some true, bitcnt := 63, pinDir := .input })).map
      (fun t => (t.serial, t.seq)) = some (some 0x8000000000000000, .idle) := by decide

/-- The second byte of `GET_TEMPERATURE` is convert-temperature (R141). -/
theorem test_getTemperature_second_byte :
    (next? (step (at_ .t2 0))).map (fun t => (t.byte, t.bit, t.trace)) =
      some (some 0x44, some false, [.low]) := by decide
/-- After `ACC16` the interpretation follows, in a step of its own with no event (R141, R227). -/
theorem test_getTemperature_end :
    (next? (step { at_ .t7 7 with
      raw := some 0x0190, bit := some false, bitcnt := 15, pinDir := .input })).map
      (fun t => (t.seq, t.raw, t.temp)) = some (.t8, some 0x0190, none) := by decide

/-- The only byte of `GET_SERIAL_NUMBER` is read-ROM (R146, R147). -/
theorem test_getSerialNumber_byte :
    (next? (step (at_ .s1 0))).map (fun t => (t.byte, t.bit)) = some (some 0x33, some true) := by
  decide
theorem test_getSerialNumber_accepted :
    (next? (step (asks (.cw 0xB00)))).map (fun t => (t.seq, t.host, t.trace)) =
      some (.s0, [], []) := by decide

/-- A command code named alone is sent as its byte (R76). -/
theorem test_cmdSkipRom_sends : (next? (step (at_ (.x (.command .skipRom)) 0))).map (·.byte) =
    some (some 0xCC) := by decide
theorem test_cmdReadRom_sends : (next? (step (at_ (.x (.command .readRom)) 0))).map (·.byte) =
    some (some 0x33) := by decide
theorem test_cmdConvertT_sends : (next? (step (at_ (.x (.command .convertT)) 0))).map (·.byte) =
    some (some 0x44) := by decide
theorem test_cmdReadScratchpad_sends :
    (next? (step (at_ (.x (.command .readScratchpad)) 0))).map (·.byte) = some (some 0xBE) := by
  decide

/-! ## Refusals and faults -/

/-- V70, V74, V75, V76 by kind: reserved, not configured, internal, no value in `RAW`, unknown command. -/
theorem test_refusals :
    refusal? (step (asks (.cw 0xC12))) = some (.reservedCode 0xC) ∧
    refusal? (step { asks (.cw 0xA00) with configured := false }) = some .notConfigured ∧
    refusal? (step { asks (.cw 0x3CC) with params := { paramsE with exposeInternalOps := false } }) =
      some .notExposed ∧
    refusal? (step (asks (.cw 0x800))) = some .rawHoldsNoValue ∧
    refusal? (step (asks (.code 0xF1))) = some (.unknownCommand 0xF1) := by decide

/-- R148: search-ROM is no operation, even with the internal operations exposed. -/
theorem test_cmdSearchRom_never_sent :
    refusal? (step (asks (.code 0xF0))) = some .neverSent := by decide

/-- V72: a request made while busy waits, or is dropped when it is made at once (R198, R233). -/
theorem test_busy_requests :
    (next? (step { at_ (.x .reset) 0 with host := [.request (.cw 0xB00)] })).map
      (fun t => (t.trace, t.host)) = some ([.low], [.request (.cw 0xB00)]) ∧
    (next? (step { at_ (.x .reset) 0 with host := [.requestNow (.cw 0xB00)] })).map
      (fun t => (t.trace, t.host)) = some ([.low], []) := by decide

/-- P5: a hardware reset leaves the pin as the last event put it (R222). -/
theorem test_hard_reset :
    (next? (step { at_ .t0 2 with pinOut := false, host := [.hardReset] })).map
      (fun t => ((t.seq, t.slot, t.configured), (t.pinOut, t.pinDir, t.trace))) =
      some ((.idle, 0, false), (false, .output, [])) := by decide

/-- What no run does is refused or faults, never guessed (R40, R204, U8). -/
theorem test_stops :
    refusal? (step { at_ (.x .reset) 0 with pinDir := .input }) = some .pinWriteWhileInput ∧
    refusal? (step (at_ (.x .readBit) 5)) = some .sampleWhileOutput ∧
    fault? (step (at_ (.x .writeByte) 0)) = some (.noValue .byte) ∧
    fault? (step (at_ (.x .reset) 9)) = some .badPosition := by decide

theorem test_results_while_busy :
    ({ at_ .t0 0 with temp := some 250 } : State).resTemp = none ∧
    ({ bench with temp := some 250 } : State).resTemp = some 250 := by decide

/-- `withFetchWord` places a word so that the next step runs it, from reset too. -/
theorem test_withFetchWord :
    (next? (step (State.reset.withFetchWord 12 0xA00))).map (·.seq) = some .t0 ∧
    (next? (step (State.reset.withFetchWord 12 0x800))).map (·.seq) = some (.x .decodeTemp) ∧
    (next? (step (State.reset.withFetchWord 8 0x44))).map (·.seq) =
      some (.x (.command .convertT)) ∧
    refusal? (step (State.reset.withFetchWord 8 0xF0)) = some .neverSent := by decide

/-! ## Witnesses: the hypotheses of every obligation can be met -/

theorem bench_bench : bench.Bench := by decide

theorem bench_waits : bench.HostWaits := by
  left
  decide

theorem bench_inv : Machine.Inv bench := by
  refine ⟨by unfold PositionOk; decide, by unfold ConfiguredOk; decide, ?_, ?_⟩ <;>
    simp [PinOk, RegsOk, bench, Seq.isRead, Seq.isByteFrame, Seq.sends]

/-- In the middle of a read slot of `ACC16` inside `GET_TEMPERATURE`. -/
def sampling : State := { at_ .t7 5 with raw := some 0x0190, bitcnt := 3, pinDir := .input }

theorem sampling_inv : Machine.Inv sampling := by
  refine ⟨by unfold PositionOk; decide, by unfold ConfiguredOk; decide, ?_, ?_⟩ <;>
    simp [PinOk, RegsOk, sampling, at_, bench, Seq.isRead, Seq.isByteFrame, Seq.sends]

/-- In the middle of the convert-temperature byte. -/
def sending : State :=
  { at_ .t2 1 with byte := some 0x44, bit := some false, pinOut := false }

theorem sending_inv : Machine.Inv sending := by
  refine ⟨by unfold PositionOk; decide, by unfold ConfiguredOk; decide, ?_, ?_⟩ <;>
    simp [PinOk, RegsOk, sending, at_, bench, Seq.isRead, Seq.isByteFrame, Seq.sends, paramsE,
      CommandCodes.default, bitOfByte]

theorem isSome_next {r : Result} (h : (next? r).isSome = true) : ∃ t, r = .next t := by
  cases r with
  | next t => exact ⟨t, rfl⟩
  | fault f => cases h
  | refused f => cases h

theorem witness_HardResetAbandonsOperation :
    let s : State := { at_ .t0 2 with pinOut := false, host := [.hardReset] }
    s.host = .hardReset :: [] ∧ s.busy = true ∧
    ({ bench with host := [.hardReset] } : State).host = .hardReset :: [] ∧
    bench.busy = false := by decide

theorem witness_StepKeepsInvariant :
    (Machine.Inv bench ∧ ∃ t, step bench = .next t) ∧
    (Machine.Inv sampling ∧ ∃ t, step sampling = .next t) ∧
    (Machine.Inv sending ∧ ∃ t, step sending = .next t) :=
  ⟨⟨bench_inv, isSome_next (by decide)⟩, ⟨sampling_inv, isSome_next (by decide)⟩,
    ⟨sending_inv, isSome_next (by decide)⟩⟩

/-- An operation in progress, and an idle OWM that refuses a request. -/
theorem witness_NothingStopsAnOperation :
    (Machine.Inv sampling ∧ sampling.busy = true) ∧
    ∃ s : State, Machine.Inv s ∧ step s = .refused (.reservedCode 0xF) := by
  refine ⟨⟨sampling_inv, by decide⟩, asks (.cw 0xF00), ?_, rfl⟩
  exact ⟨bench_inv.position, bench_inv.configured, bench_inv.pin, bench_inv.regs⟩

theorem witness_EndOfOperationRestoresPin :
    ∃ s t : State, Machine.Inv s ∧ s.busy = true ∧ s.host.head? ≠ some .hardReset ∧
      step s = .next t ∧ t.seq = .idle := by
  refine ⟨at_ .i0 0, _, ?_, by decide, by decide, rfl, rfl⟩
  refine ⟨by unfold PositionOk; decide, by unfold ConfiguredOk; decide, ?_, ?_⟩ <;>
    simp [PinOk, RegsOk, at_, bench, Seq.isRead, Seq.isByteFrame, Seq.sends]

theorem witness_StepRunsRequestedInstruction :
    (asks (.cw 0x500)).seq = .idle ∧ (asks (.cw 0x500)).host = .request (.cw 0x500) :: [] ∧
    decode (asks (.cw 0x500)).params.codes (.cw 0x500) = .ok .reset ∧
    ({ bench with host := [.requestNow (.code 0x44)] } : State).host =
      .requestNow (.code 0x44) :: [] ∧
    decode bench.params.codes (.code 0x44) = .ok .cmdConvertT := ⟨rfl, rfl, rfl, rfl, rfl⟩

theorem witness_StepCarriesOn :
    ((asks (.cw 0x500)).HostWaits ∧ bench.HostWaits) ∧
    (at_ .t8 0).current = some .getTemperature ∧ bench.seq = .idle ∧ bench.host = [] := by
  refine ⟨⟨.inr ⟨.cw 0x500, rfl⟩, bench_waits⟩, rfl, rfl, rfl⟩

/-- One state for each of the eight events. -/
theorem witness_OneEventPerBusyStep :
    event? (step (at_ .i0 0)) = some (.cfg true 3) ∧
    event? (step (at_ .s0 0)) = some .low ∧
    event? (step (at_ .s0 2)) = some .high ∧
    event? (step (at_ .s0 3)) = some (.dlyUs 480) ∧
    event? (step (at_ .s2 4)) = some .dirIn ∧
    event? (step sampling) = some (.smp true) ∧
    event? (step { sampling with slot := 7, bit := some true }) = some .dirOut ∧
    event? (step (at_ .t3d 0)) = some (.dlyMs 100) := by decide

theorem witness_NoEventOtherwise :
    (next? (step (asks (.cw 0x100)))).isSome = true ∧ (asks (.cw 0x100)).seq = .idle ∧
    (next? (step { at_ .t8 0 with raw := some 0 })).isSome = true ∧
    (next? (step { at_ (.x .decodeTemp) 0 with raw := some 0 })).isSome = true := by decide

theorem witness_ParametersNeverChange : (next? (step bench)).isSome = true := by decide

theorem witness_OnlyDecodeTempWritesSignAndTemp :
    (next? (step sampling)).isSome = true ∧ sampling.host.head? ≠ some .hardReset ∧
    sampling.seq ≠ .t8 ∧ sampling.seq ≠ .x .decodeTemp := by decide

theorem witness_SignAndTempInfluenceNothing :
    sampling.host.head? ≠ some .hardReset ∧ (next? (step sampling)).isSome = true ∧
    sampling.seq ≠ .t8 ∧ sampling.seq ≠ .x .decodeTemp ∧
    (next? (step { at_ .t8 0 with raw := some 0x1000, temp := some 7 })).isSome = true := by decide

theorem witness_OperationsLeaveHostQueue :
    (next? (exec .getTemperature sampling)).isSome = true ∧
    (next? (exec .init bench)).isSome = true := by decide

theorem witness_RequestWhileBusyIsWithoutEffect : sampling.busy = true := by decide

theorem witness_OtherOperationRefusedWhileBusy :
    sampling.current = some .getTemperature ∧ (Instr.init ≠ .getTemperature) ∧
    (∀ b c, ¬(Instr.init = .writeBit b ∧ Instr.getTemperature = .writeBit c)) ∧
    (∀ v w, ¬(Instr.init = .writeByte v ∧ Instr.getTemperature = .writeByte w)) := by
  refine ⟨rfl, by decide, ?_, ?_⟩ <;> simp

theorem witness_UnconfiguredRefused :
    let s : State := { bench with configured := false }
    s.seq = .idle ∧ s.configured = false ∧ Instr.getTemperature ≠ .init ∧
    Instr.getTemperature.isPublic = true ∧ Instr.readBit.isPublic = false := by decide

theorem witness_InternalOperationsGated :
    let off : State := { bench with params := { paramsE with exposeInternalOps := false } }
    let full : State := { bench with raw := some 0 }
    (off.seq = .idle ∧ off.params.exposeInternalOps = false ∧ Instr.reset.isPublic = false) ∧
    (bench.params.exposeInternalOps = true ∧ bench.configured = true ∧ bench.raw = none ∧
      Instr.decodeTemp.isPublic = false ∧ Instr.cmdSearchRom.isPublic = false) ∧ full.raw ≠ none ∧ Instr.reset ≠ .decodeTemp := by decide

theorem witness_ReservedCodeRefused :
    12 ≤ (0xC : BitVec 4).toNat ∧ 12 ≤ (0xF : BitVec 4).toNat ∧
    (asks (.cw ((0xC : BitVec 4) ++ (0 : Byte)))).host =
      .request (.cw ((0xC : BitVec 4) ++ (0 : Byte))) :: [] ∧
    (asks (.cw 0xF00)).seq = .idle := by decide

/-- Under the default codes every instruction is well formed. -/
theorem witness_DecodeOfEncode :
    Instr.WellFormed CommandCodes.default .cmdSearchRom ∧
    Instr.WellFormed CommandCodes.default .cmdReadScratchpad ∧
    Instr.WellFormed CommandCodes.default (.writeByte 0xFF) := by
  refine ⟨?_, ?_, ?_⟩ <;> rintro k ⟨⟩ <;> decide

theorem witness_ArgReadOnlyByWrites : (0xB : BitVec 4) ≠ 1 ∧ (0xB : BitVec 4) ≠ 3 := by decide

theorem witness_CommandBytesNameThemselves :
    CommandCodes.default.WellFormed ∧
    instr? (decode CommandCodes.default (.code 0x33)) = some .cmdReadRom := by decide

theorem witness_InitConfiguresPin :
    let s : State := { bench with configured := false, pinDir := .input, pinOut := false }
    s.seq = .idle ∧ s.bitcnt = 0 ∧ s.slot = 0 ∧ s.HostWaits :=
  ⟨rfl, rfl, rfl, .inl rfl⟩

/-- For `WRITE_BIT`, `READ_BIT`, `WRITE_BYTE`, `READ_BYTE`, `RESET`, `ACC16`, `ACC64`, and for
`GET_SERIAL_NUMBER`, which asks less. -/
theorem witness_bench : bench.Bench ∧ bench.HostWaits := ⟨bench_bench, bench_waits⟩

theorem witness_WriteBitSendsOneSlot : bench.Bench ∧ bench.HostWaits := witness_bench
theorem witness_ReadBitReturnsSample : bench.Bench ∧ bench.HostWaits := witness_bench
theorem witness_WriteByteSendsFrame : bench.Bench ∧ bench.HostWaits := witness_bench
theorem witness_ReadByteAssemblesSamples : bench.Bench ∧ bench.HostWaits := witness_bench
theorem witness_BusResetPulse : bench.Bench ∧ bench.HostWaits := witness_bench
theorem witness_Acc16AssemblesRaw : bench.Bench ∧ bench.HostWaits := witness_bench
theorem witness_Acc64AssemblesSerial : bench.Bench ∧ bench.HostWaits := witness_bench
theorem witness_GetSerialNumberRun : bench.Ready ∧ bench.HostWaits := ⟨bench_bench.2, bench_waits⟩
theorem witness_GetSerialNumberIsItsExpansion : bench.Bench := bench_bench
theorem witness_Acc16IsTwoReadBytes : bench.Bench := bench_bench

/-- No zero before the one, and two. -/
theorem witness_WaitConvEndsAtFirstOne :
    answers 1 bench = List.replicate 0 false ++ [true] ∧
    answers 3 (answering [false, false, true]) = List.replicate 2 false ++ [true] ∧
    (answering [false, false, true]).Bench := by decide

/-- On both sides of the sign test. -/
theorem witness_DecodeTempResult :
    let s : Half → State := fun raw => { bench with raw := some raw }
    (s 0x0FFF).Bench ∧ (s 0x0FFF).raw = some 0x0FFF ∧ (s 0x1000).Bench ∧
    (s 0x1000).raw = some 0x1000 := by decide

theorem witness_DecodeTempLaws :
    let s : Half → State := fun raw => { at_ .t8 0 with raw := some raw }
    (s 0x0FFF).seq = .t8 ∧ (next? (step (s 0x0FFF))).bind (·.temp) = some 2559 ∧
    (next? (step (s 0x1000))).bind (·.temp) = some 38399 := by decide

/-- A reading at each side of the sign test, after no zero poll and after one. -/
theorem witness_GetTemperatureRun :
    let warm := answering (true :: lsbBits (0x0FFF : Half))
    let cold := answering (false :: true :: lsbBits (0x1000 : Half))
    warm.Ready ∧ answers 1 warm = List.replicate 0 false ++ [true] ∧
    lsbValue (answers 16 (dropSamples 1 warm)) = 0x0FFF ∧
    cold.Ready ∧ answers 2 cold = List.replicate 1 false ++ [true] ∧
    lsbValue (answers 16 (dropSamples 2 cold)) = 0x1000 := by decide

theorem witness_GetTemperatureIsItsExpansion :
    (answering [false, true]).Bench ∧
    answers 2 (answering [false, true]) = List.replicate 1 false ++ [true] := by decide

theorem witness_CommandCodesSentAsByteFrames :
    Instr.cmdSkipRom.command? = some SentCommand.skipRom.toCommand ∧
    Instr.cmdReadRom.command? = some SentCommand.readRom.toCommand ∧
    Instr.cmdConvertT.command? = some SentCommand.convertT.toCommand ∧
    Instr.cmdReadScratchpad.command? = some SentCommand.readScratchpad.toCommand ∧
    bench.Bench := by decide

/-- A line stuck low. -/
def stuckLow : State := { bench with env := { given := [], after := .forever false } }

theorem stuckLow_answers (m : Nat) (s : State) (h : s.env = { given := [], after := .forever false }) :
    answers m s = List.replicate m false := by
  induction m generalizing s with
  | zero => rfl
  | succ m ih =>
    rw [answers, ih (dropSample s) (by simp [h]), List.replicate_succ]
    simp [nextSample, h]

theorem witness_EndlessWait :
    stuckLow.Ready ∧ stuckLow.HostWaits ∧ ∀ m, answers m stuckLow = List.replicate m false :=
  ⟨by decide, .inl rfl, fun m => stuckLow_answers m _ rfl⟩

theorem witness_InitFrame :
    (next? (exec .init bench)).isSome = true ∧ (next? (exec .init (at_ .i0 0))).isSome = true := by
  decide

theorem witness_WritingOperationsFrame :
    (next? (exec (.writeBit true) { at_ (.x .writeBit) 0 with bit := some true })).isSome = true ∧
    (next? (exec (.writeByte 1) { at_ (.x .writeByte) 4 with byte := some 1 })).isSome = true ∧
    (next? (exec .reset (at_ (.x .reset) 3))).isSome = true ∧
    (next? (exec .cmdReadRom (at_ (.x (.command .readRom)) 0))).isSome = true ∧
    Instr.cmdReadRom.command? ≠ none := by decide

theorem witness_ReadingOperationsFrame :
    (next? (exec .readBit (at_ (.x .readBit) 0))).isSome = true ∧
    (next? (exec .readByte (at_ (.x .readByte) 0))).isSome = true ∧
    (next? (exec .waitConv (at_ (.x .waitDelay) 0))).isSome = true ∧
    (next? (exec .acc16 (at_ (.x .acc16) 0))).isSome = true ∧
    (next? (exec .acc64 (at_ (.x .acc64) 0))).isSome = true := by decide

theorem witness_DecodeTempFrame :
    (next? (exec .decodeTemp { at_ (.x .decodeTemp) 0 with raw := some 0 })).isSome = true ∧
    (next? (exec .decodeTemp { bench with raw := some 0 })).isSome = true := by decide

theorem witness_PublicOperationsFrame :
    bench.params.codes.WellFormed ∧ Seq.sends .t1 = some .skipRom ∧ Seq.sends .t3 = none ∧
    (next? (exec .getTemperature (at_ .t1 0))).isSome = true ∧
    (next? (exec .getTemperature (at_ .t1 0))).bind (·.byte) ≠ (at_ .t1 0).byte ∧
    (next? (exec .getSerialNumber (at_ .s1 0))).isSome = true := by decide

theorem witness_ReadingReproducesTheValue :
    answers 8 (answering (lsbBits (0x28 : Byte))) = lsbBits (0x28 : Byte) ∧
    answers 16 (answering (lsbBits (0x0190 : Half))) = lsbBits (0x0190 : Half) ∧
    answers 64 (answering (lsbBits (0x7A000001B2C3D428 : Wide))) =
      lsbBits (0x7A000001B2C3D428 : Wide) ∧ (answering []).Bench := by decide

theorem witness_RequestedDelays :
    bench.Ready ∧ bench.params.timing.WellFormed ∧
    answers 1 bench = List.replicate 0 false ++ [true] := by decide

theorem witness_RunSizes :
    bench.Ready ∧ answers 1 bench = List.replicate 0 false ++ [true] ∧
    answers 3 (answering [false, false, true]) = List.replicate 2 false ++ [true] := by decide

theorem witness_ResultsReadOnlyWhenIdle : sampling.busy = true ∧ bench.busy = false := by decide

theorem witness_HostCannotDisturb :
    sampling.busy = true ∧ sampling.host = [] ∧
    ([.requestNow (.cw 0xB00)] : List HostMove).head? ≠ some .hardReset ∧
    (next? (step sampling)).isSome = true := by decide

theorem witness_SearchRomIsNeverSent :
    bench.Bench ∧ Machine.Inv sending ∧ sending.params.codes.WellFormed ∧
    sending.host.head? ≠ some .hardReset ∧ sending.seq.isByteFrame = true ∧
    sending.seq ≠ .x .writeByte :=
  ⟨bench_bench, sending_inv, by decide, by decide, by decide, by decide⟩

end Sys2Proof.Tests
end

/-! ## Proofs: the command codes (R10, R76, R77)

The decoder of a byte goes through the five codes in order, so a code is read as its own command when the
codes before it differ from it. -/

namespace Sys2Proof

/-- Under distinct codes every command has its code to itself. -/
theorem Command.unambiguous_of_wellFormed {c : CommandCodes} (h : c.WellFormed) (k : Command) :
    k.Unambiguous c := by
  simp only [CommandCodes.WellFormed, List.nodup_cons, List.mem_cons, not_or] at h
  cases k <;> simp [Command.Unambiguous, h, eq_comm]

/-- A code that names one command only is decoded to that command. -/
theorem decodeWire_code {c : CommandCodes} {k : Command} (h : k.Unambiguous c) :
    decodeWire c (c.code k) = .ok (Instr.ofCommand k) := by
  obtain ⟨hskip, hsearch, hread, hconvert, -⟩ := h
  unfold decodeWire
  cases k with
  | skipRom => rw [if_pos (code_skipRom c), ofCommand_skipRom]
  | searchRom => rw [if_neg (hskip nofun), if_pos (code_searchRom c), ofCommand_searchRom]
  | readRom =>
    rw [if_neg (hskip nofun), if_neg (hsearch nofun), if_pos (code_readRom c), ofCommand_readRom]
  | convertT =>
    rw [if_neg (hskip nofun), if_neg (hsearch nofun), if_neg (hread nofun),
      if_pos (code_convertT c), ofCommand_convertT]
  | readScratchpad =>
    rw [if_neg (hskip nofun), if_neg (hsearch nofun), if_neg (hread nofun), if_neg (hconvert nofun),
      if_pos (code_readScratchpad c), ofCommand_readScratchpad]

/-- A byte that decodes is the code of a command, and decodes to it; no two codes need differ. -/
theorem decodeWire_ok {c : CommandCodes} {b : Byte} {i : Instr} (h : decodeWire c b = .ok i) :
    ∃ k, b = c.code k ∧ i = Instr.ofCommand k := by
  unfold decodeWire at h
  split at h
  · cases h; exact ⟨.skipRom, ‹_›, rfl⟩
  split at h
  · cases h; exact ⟨.searchRom, ‹_›, rfl⟩
  split at h
  · cases h; exact ⟨.readRom, ‹_›, rfl⟩
  split at h
  · cases h; exact ⟨.convertT, ‹_›, rfl⟩
  split at h
  · cases h; exact ⟨.readScratchpad, ‹_›, rfl⟩
  · cases h

/-- Settles O23: distinct codes are unambiguous, and the decoder accepts nothing but codes. -/
theorem commandBytesNameThemselves : Obligations.CommandBytesNameThemselves := by
  intro c hc
  exact ⟨fun k => decodeWire_code (k.unambiguous_of_wellFormed hc), fun _ _ => decodeWire_ok⟩

end Sys2Proof

/-! ## Proofs: the event of a step (R12)

Short of a hardware reset a step is one of an instruction or a wait, whatever moves the host makes; what
an instruction's step emits is `ExecCase`. -/

namespace Sys2Proof.Machine

open Sys2Proof

theorem Seq.decodes_iff (q : Seq) : q.decodes = true ↔ q = .t8 ∨ q = .x .decodeTemp := by
  simp [Seq.decodes]

/-- A next state that no hardware reset made is an instruction's, or that of an idle OWM which waits. -/
theorem step_next {s t : State} (hr : s.host.head? ≠ some .hardReset) (h : step s = .next t) :
    ∃ l, (∃ i, exec i { s with host := l } = .next t) ∨ s.seq = .idle ∧ t = { s with host := l } := by
  cases step_cases s with
  | reset l hh _ => simp [hh] at hr
  | carriesOn l i _ _ e => exact ⟨l, .inl ⟨i, e ▸ h⟩⟩
  | waits l _ hi e => exact ⟨l, .inr ⟨hi, Host.Outcome.next.inj (h.symm.trans e)⟩⟩
  | starts w l i _ _ _ e => exact ⟨l, .inl ⟨i, e ▸ h⟩⟩
  | rejects w l r _ _ _ e => cases e ▸ h

/-! ### One event (R12, R37 to R43) -/

theorem output_of_pinRule_low {d : PinDir} (h : pinRule .low d = none) : d = .output := by
  cases d with
  | output => rfl
  | input => cases h

theorem output_of_pinRule_high {d : PinDir} (h : pinRule .high d = none) : d = .output := by
  cases d with
  | output => rfl
  | input => cases h

theorem input_of_pinRule_smp {b : Bit} {d : PinDir} (h : pinRule (.smp b) d = none) : d = .input := by
  cases d with
  | output => cases h
  | input => rfl

/-- A sample takes one answer from the environment, and nothing else does (R13). -/
theorem Emits.env_draws {e : Event} {s t : State} (h : Emits e s t) :
    (t.env, t.draws) = if e = .smp (nextSample s) then ((dropSample s).env, (dropSample s).draws)
      else (s.env, s.draws) := by
  cases e with
  | smp b =>
    obtain ⟨rfl, -, henv, hdraws⟩ := h.sampled b rfl
    rw [if_pos rfl, henv, hdraws]
  | _ =>
    obtain ⟨henv, hdraws⟩ := h.unsampled rfl
    rw [if_neg nofun, henv, hdraws]

/-- A busy OWM that does not interpret `RAW` emits one event; only that of `INIT` configures. -/
theorem exec_emits {i : Instr} {s t : State} (hb : s.seq ≠ .idle) (hq : s.seq.decodes = false)
    (h : exec i s = .next t) :
    ∃ e, (∀ od sp, e = .cfg od sp → od = true ∧ sp = s.params.pinSpeed) ∧ Emits e s t := by
  cases exec_next h with
  | starts hi => exact absurd hi hb
  | decodes hd => exact absurd hd (by simp [hq])
  | emits _ _ e he h => exact ⟨e, fun od sp hc => (he od sp hc).2, h⟩

/-- Settles O9: the step is one of the instruction in progress, whose event is `exec_emits`; each of the
eight events then has its own effect. -/
theorem oneEventPerBusyStep : Obligations.OneEventPerBusyStep := by
  intro s t hb h8 hx hr h
  have hb : s.seq ≠ .idle := by simpa [State.busy] using hb
  have hq : s.seq.decodes = false := by simp [← Bool.not_eq_true, Seq.decodes_iff, h8, hx]
  obtain ⟨l, ⟨i, h⟩ | ⟨hi, -⟩⟩ := step_next hr h
  · obtain ⟨e, hcfg, h⟩ := exec_emits (s := { s with host := l }) hb hq h
    refine ⟨e, h.trace, ?_, h.env_draws⟩
    cases e with
    | cfg od sp =>
      obtain ⟨hod, hsp⟩ := hcfg od sp rfl
      exact ⟨hod, hsp, h.configured, h.pinDir, h.pinOut⟩
    | low => exact ⟨output_of_pinRule_low h.rule, h.pinOut, h.pinDir, h.configured⟩
    | high => exact ⟨output_of_pinRule_high h.rule, h.pinOut, h.pinDir, h.configured⟩
    | dirIn => exact ⟨h.pinDir, h.pinOut, h.configured⟩
    | dirOut => exact ⟨h.pinDir, h.pinOut, h.configured⟩
    | smp b =>
      obtain ⟨hans, hbit, -, -⟩ := h.sampled b rfl
      exact ⟨input_of_pinRule_smp h.rule, hans, hbit, h.pinOut, h.pinDir, h.configured⟩
    | dlyUs n => exact ⟨h.pinOut, h.pinDir, h.configured⟩
    | dlyMs n => exact ⟨h.pinOut, h.pinDir, h.configured⟩
  · exact absurd hi hb

/-! ### No event (R12, R31, R168) -/

/-- An instruction that starts, and the interpretation of `RAW`, emit nothing and leave the line alone. -/
theorem exec_emits_nothing {i : Instr} {s t : State} (hq : s.seq = .idle ∨ s.seq.decodes = true)
    (h : exec i s = .next t) :
    t.trace = s.trace ∧ t.pinOut = s.pinOut ∧ t.pinDir = s.pinDir ∧
      t.configured = s.configured ∧ t.env = s.env ∧ t.draws = s.draws := by
  cases exec_next h with
  | starts _ _ h => exact ⟨h.trace, h.pinOut, h.pinDir, h.configured, h.env, h.draws⟩
  | decodes _ raw _ h => subst h; exact ⟨rfl, rfl, rfl, rfl, rfl, rfl⟩
  | emits hb hd => simp [hb, hd] at hq

/-- Settles O10: the step is one of an instruction, by `exec_emits_nothing`, or a wait. -/
theorem noEventOtherwise : Obligations.NoEventOtherwise := by
  intro s t hs hr h
  have hq : s.seq = .idle ∨ s.seq.decodes = true := hs.imp_right (Seq.decodes_iff _).2
  obtain ⟨l, ⟨i, h⟩ | ⟨-, rfl⟩⟩ := step_next hr h
  · exact exec_emits_nothing (s := { s with host := l }) hq h
  · exact ⟨rfl, rfl, rfl, rfl, rfl, rfl⟩

end Sys2Proof.Machine
/-! ## Proofs: the phases as a table (R32)

Every phase does one of a dozen works, and then OWM goes on to the one phase after it. `exec` is
that table (`exec_of_idle`, `exec_of_mem_phases`, `exec_of_not_mem_phases`), so what holds of every
step is proved once per work and not once per phase of every instruction. -/

namespace Sys2Proof.Machine

open Sys2Proof

/-- What a phase does. -/
inductive PhaseWork where
  | nothing | configure | pulse | writeBit | readBit | writeByte | send (k : SentCommand)
  | poll (wait : Seq) | delay | readByte | acc16 | acc64 | decode

/-- The work of a phase (R32, R89, R141, R146). -/
def Seq.work : Seq → PhaseWork
  | .idle => .nothing
  | .i0 => .configure
  | .t0 | .t4 | .s0 | .x .reset => .pulse
  | .t1 | .t5 => .send .skipRom
  | .t2 => .send .convertT
  | .t6 => .send .readScratchpad
  | .s1 => .send .readRom
  | .x (.command k) => .send k
  | .t3 => .poll .t3d
  | .x .waitConv => .poll (.x .waitDelay)
  | .t3d | .x .waitDelay => .delay
  | .t7 | .x .acc16 => .acc16
  | .s2 | .x .acc64 => .acc64
  | .t8 | .x .decodeTemp => .decode
  | .x .writeBit => .writeBit
  | .x .readBit => .readBit
  | .x .writeByte => .writeByte
  | .x .readByte => .readByte

/-- The phase OWM goes on to when the work is done (R32). -/
def Seq.after : Seq → Seq
  | .t0 => .t1
  | .t1 => .t2
  | .t2 | .t3d => .t3
  | .t3 => .t4
  | .t4 => .t5
  | .t5 => .t6
  | .t6 => .t7
  | .t7 => .t8
  | .s0 => .s1
  | .s1 => .s2
  | .x .waitDelay => .x .waitConv
  | .idle | .i0 | .t8 | .s2 | .x _ => .idle

/-- The next step of a work; phase `q` follows its last. -/
def PhaseWork.run (w : PhaseWork) (q : Seq) (s : State) : Result :=
  match w with
  | .nothing => .next s
  | .configure => emit (.cfg true s.params.pinSpeed) (goto q) s
  | .pulse => resetPulse (goto q) s
  | .writeBit => readReg .bit s.bit fun b => writeSlot b (goto q) s
  | .readBit => readSlot (goto q) s
  | .writeByte => byteFrame (goto q) s
  | .send k => sendByte (s.params.codes.code k.toCommand) (goto q) s
  | .poll wait => pollOnce wait (goto q) s
  | .delay => pollDelay q s
  | .readByte => readByteFrame (goto q) s
  | .acc16 => acc16Frame (goto q) s
  | .acc64 => acc64Frame (goto q) s
  | .decode => decodeTempNow (goto q) s

/-- The next step of the phase in progress. -/
def State.phaseStep (s : State) : Result := s.seq.work.run s.seq.after s

end Sys2Proof.Machine

namespace Sys2Proof

open Machine

/-- The phases of an operation, its first one first (R32, R89). -/
def Instr.phases : Instr → List Seq
  | .init => [.i0]
  | .writeBit _ => [.x .writeBit]
  | .readBit => [.x .readBit]
  | .writeByte _ => [.x .writeByte]
  | .readByte => [.x .readByte]
  | .reset => [.x .reset]
  | .waitConv => [.x .waitConv, .x .waitDelay]
  | .acc16 => [.x .acc16]
  | .decodeTemp => [.x .decodeTemp]
  | .acc64 => [.x .acc64]
  | .getTemperature => [.t0, .t1, .t2, .t3, .t3d, .t4, .t5, .t6, .t7, .t8]
  | .getSerialNumber => [.s0, .s1, .s2]
  | .cmdSkipRom => [.x (.command .skipRom)]
  | .cmdSearchRom => []
  | .cmdReadRom => [.x (.command .readRom)]
  | .cmdConvertT => [.x (.command .convertT)]
  | .cmdReadScratchpad => [.x (.command .readScratchpad)]

/-- The phase an accepted request leads to (R88). -/
def Instr.entry (i : Instr) : Seq := i.phases.headD .idle

/-- The operand of an accepted request, in its register (R87; log 10). -/
def Instr.load (i : Instr) (s : State) : State :=
  match i with
  | .writeBit b => { s with bit := some b }
  | .writeByte v => { s with byte := some v }
  | _ => s

/-- Why a request made of an idle OWM is refused (R89, R148, R225). -/
def Instr.refusal (i : Instr) (s : State) : Option Refusal :=
  if i = .init then none
  else if i.isPublic = false ∧ s.params.exposeInternalOps = false then some .notExposed
  else if s.configured = false then some .notConfigured
  else if i = .cmdSearchRom then some .neverSent
  else if i = .decodeTemp ∧ s.raw = none then some .rawHoldsNoValue
  else none

end Sys2Proof

namespace Sys2Proof.Machine

open Sys2Proof

/-! ### `exec` is the table -/

/-- Each instruction takes the step of the phase in progress when the phase is its own (R31). -/
theorem exec_of_mem_phases {i : Instr} {s : State} (h : s.seq ∈ i.phases) :
    exec i s = s.phaseStep := by
  revert h
  cases i <;>
    simp +contextual [Instr.phases, or_imp, exec, State.phaseStep, Seq.work, Seq.after,
      PhaseWork.run, execInit, execWriteBit, execReadBit, execWriteByte, execReadByte, execReset,
      execWaitConv, execAcc16, execDecodeTemp, execAcc64, execGetTemperature, execGetSerialNumber,
      sendCommand, execCmdSkipRom, execCmdReadRom, execCmdConvertT, execCmdReadScratchpad]

/-- While another operation is in progress it is refused (R198). -/
theorem exec_of_not_mem_phases {i : Instr} {s : State} (hb : s.seq ≠ .idle) (h : s.seq ∉ i.phases) :
    exec i s = .refused .busy := by
  cases i <;>
    simp only [exec, execInit, execWriteBit, execReadBit, execWriteByte, execReadByte, execReset,
      execWaitConv, execAcc16, execDecodeTemp, execAcc64, execGetTemperature, execGetSerialNumber,
      sendCommand, execCmdSkipRom, execCmdSearchRom, execCmdReadRom, execCmdConvertT,
      execCmdReadScratchpad] <;>
    split <;> simp_all [Instr.phases]

/-- An idle OWM refuses the request or goes to the instruction's first phase (R88): each instruction
asks its own questions, in the order of `Instr.refusal`. -/
theorem exec_of_idle {i : Instr} {s : State} (hi : s.seq = .idle) :
    exec i s = match i.refusal s with
      | some r => .refused r
      | none => .next (atPhase i.entry (i.load s)) := by
  cases i <;>
    simp [Instr.refusal, Instr.isPublic, Instr.entry, Instr.phases, Instr.load, exec, hi, goto,
      acceptInternal, acceptConfigured,
      execInit, execWriteBit, execReadBit, execWriteByte, execReadByte, execReset, execWaitConv,
      execAcc16, execDecodeTemp, execAcc64, execGetTemperature, execGetSerialNumber, sendCommand,
      execCmdSkipRom, execCmdSearchRom, execCmdReadRom, execCmdConvertT, execCmdReadScratchpad]
  all_goals split_ifs <;> simp_all

/-- A next state of an instruction is its acceptance, or the step of a phase of its own. -/
theorem exec_next_cases {i : Instr} {s t : State} (h : exec i s = .next t) :
    (s.seq = .idle ∧ i.refusal s = none ∧ t = atPhase i.entry (i.load s)) ∨
      (s.seq ∈ i.phases ∧ s.phaseStep = .next t) := by
  by_cases hi : s.seq = .idle
  · rw [exec_of_idle hi] at h
    split at h
    · cases h
    · cases h; exact .inl ⟨hi, ‹_›, rfl⟩
  · by_cases hp : s.seq ∈ i.phases
    · exact .inr ⟨hp, (exec_of_mem_phases hp).symm.trans h⟩
    · rw [exec_of_not_mem_phases hi hp] at h; cases h

/-- The instruction in progress is one whose phase it is (R31). -/
theorem mem_phases_of_current {i : Instr} {s : State} (h : s.current = some i) :
    s.seq ∈ i.phases := by
  cases hs : s.seq with
  | x op =>
    cases op with
    | command k => cases k <;> simp [State.current, hs] at h <;> simp [← h, Instr.phases]
    | _ => simp [State.current, hs] at h; simp [← h, Instr.phases]
  | _ => simp [State.current, hs] at h <;> simp [← h, Instr.phases]

/-! ### The shared operations, case by case -/

section
variable {s : State} {k : State → Result}

/-- The hold and the pad of a slot, of whatever length (R71, R72, R73). -/
def drive (hold pad : Nat) (k : State → Result) (s : State) : Result :=
  match s.slot with
  | 0 => emit .low nextSlot s
  | 1 => emit (.dlyUs hold) nextSlot s
  | 2 => emit .high nextSlot s
  | 3 => emit (.dlyUs pad) k s
  | _ => .fault .badPosition

theorem writeSlot_eq_drive (b : Bit) (k : State → Result) (s : State) :
    writeSlot b k s =
      drive (holdTime s.params.timing b) (padTime s.params.timing b) k s := rfl

theorem resetPulse_eq_drive (k : State → Result) (s : State) :
    resetPulse k s = drive s.params.timing.tRstLow s.params.timing.tRstWait k s := rfl

theorem readSlot_eq_drive (k : State → Result) (h : s.slot < 4) :
    readSlot k s = drive s.params.timing.tRLow s.params.timing.tRSettle nextSlot s := by
  obtain hz | hz | hz | hz : s.slot = 0 ∨ s.slot = 1 ∨ s.slot = 2 ∨ s.slot = 3 := by omega
  all_goals simp only [readSlot, drive, hz]

theorem nextBit_of_lt {n : Nat} (h : s.bitcnt + 1 < n) :
    nextBit n k s = .next { s with bitcnt := s.bitcnt + 1, slot := 0 } := if_pos h

theorem nextBit_of_eq {n : Nat} (h : s.bitcnt + 1 = n) :
    nextBit n k s = k { s with bitcnt := 0, slot := 0 } := by
  simp [nextBit, h]

theorem nextBit_of_gt {n : Nat} (h : n < s.bitcnt + 1) : nextBit n k s = .fault .badPosition := by
  simp [nextBit, h.not_gt, h.ne']

theorem loadBit_of_zero (v : Byte) (h : s.slot = 0) :
    loadBit v s = { s with bit := some (bitOfByte v s.bitcnt) } := if_pos h

theorem loadBit_of_ne_zero (v : Byte) (h : s.slot ≠ 0) : loadBit v s = s := if_neg h

theorem sendByte_of_start (v : Byte) (h : s.atFrameStart = true) :
    sendByte v k s = byteFrame k { s with byte := some v } := congrArg (byteFrame k) (if_pos h)

theorem sendByte_of_not_start (v : Byte) (h : ¬s.atFrameStart = true) :
    sendByte v k s = byteFrame k s := congrArg (byteFrame k) (if_neg h)

/-- The end of a slot of a response frame (R80). -/
def Target.endSlot {n : Nat} (a : Target n) (k : State → Result) (s : State) : Result :=
  readReg .bit s.bit fun b => a.store s.bitcnt b s (nextBit n k)

theorem frame_of_start {n : Nat} (a : Target n) (h : s.atFrameStart = true) :
    a.frame k s = readSlot (a.endSlot k) (a.put 0 s) := congrArg (readSlot (a.endSlot k)) (if_pos h)

theorem frame_of_not_start {n : Nat} (a : Target n) (h : ¬s.atFrameStart = true) :
    a.frame k s = readSlot (a.endSlot k) s := congrArg (readSlot (a.endSlot k)) (if_neg h)

end

end Sys2Proof.Machine

/-! ## Proofs: the invariant, work by work (R31, R33, R34, R39, R48) -/

namespace Sys2Proof.Machine

open Sys2Proof

/-! ### What the invariant asks of a phase, by its work -/

/-- Whether the work runs read slots. -/
def PhaseWork.isRead : PhaseWork → Bool
  | .readBit | .poll _ | .readByte | .acc16 | .acc64 => true
  | _ => false

/-- How many bits its frame has (R33). -/
def PhaseWork.frameBits : PhaseWork → Nat
  | .writeByte | .send _ | .readByte => 8
  | .acc16 => 16
  | .acc64 => 64
  | _ => 1

/-- How many positions its slot has (R34). -/
def PhaseWork.slotEvents : PhaseWork → Nat
  | .pulse | .writeBit => 4
  | .writeByte | .send _ => 5
  | .readBit | .poll _ | .readByte | .acc16 | .acc64 => 8
  | .nothing | .configure | .delay | .decode => 1

/-- The registers that hold a value (R48). -/
def PhaseWork.RegsOk (w : PhaseWork) (s : State) : Prop :=
  match w with
  | .nothing | .configure | .pulse | .delay => True
  | .writeBit => s.bit.isSome
  | .readBit | .poll _ => 6 ≤ s.slot → s.bit.isSome
  | .writeByte => s.byte.isSome ∧ (1 ≤ s.slot → s.bit = s.byte.map (bitOfByte · s.bitcnt))
  | .send k =>
    (s.atFrameStart = false → s.byte = some (s.params.codes.code k.toCommand)) ∧
      (1 ≤ s.slot → s.bit = s.byte.map (bitOfByte · s.bitcnt))
  | .readByte => (6 ≤ s.slot → s.bit.isSome) ∧ (s.atFrameStart = false → s.byte.isSome)
  | .acc16 => (6 ≤ s.slot → s.bit.isSome) ∧ (s.atFrameStart = false → s.raw.isSome)
  | .acc64 => (6 ≤ s.slot → s.bit.isSome) ∧ (s.atFrameStart = false → s.serial.isSome)
  | .decode => s.raw.isSome

theorem isRead_eq_work (q : Seq) : q.isRead = q.work.isRead := by
  cases q with
  | x op => cases op <;> rfl
  | _ => rfl

theorem frameBits_eq_work (q : Seq) : q.frameBits = q.work.frameBits := by
  cases q with
  | x op => cases op <;> rfl
  | _ => rfl

theorem slotEvents_eq_work (q : Seq) : q.slotEvents = q.work.slotEvents := by
  cases q with
  | x op => cases op <;> rfl
  | _ => rfl

theorem regsOk_iff_work (s : State) : RegsOk s ↔ s.seq.work.RegsOk s := by
  cases hs : s.seq with
  | x op =>
    cases op <;>
      simp [RegsOk, hs, Seq.isRead, Seq.isByteFrame, Seq.sends, Seq.work, PhaseWork.RegsOk,
        and_comm]
  | _ =>
    simp [RegsOk, hs, Seq.isRead, Seq.isByteFrame, Seq.sends, Seq.work, PhaseWork.RegsOk, and_comm]

/-- The pin at position `k` of a slot (R39, R102, R106). -/
def PinAt (read : Bool) (k : Nat) (s : State) : Prop :=
  (s.pinOut = false ↔ k = 1 ∨ k = 2) ∧ (s.pinDir = .input ↔ read = true ∧ 5 ≤ k)

/-- The resting pin of a configured OWM (R39). -/
structure AtRest (s : State) : Prop where
  configured : s.configured = true
  pinOut : s.pinOut = true
  pinDir : s.pinDir = .output

section
variable {s : State}

theorem PinAt.output {read : Bool} {k : Nat} (h : PinAt read k s) (hk : k < 5) :
    s.pinDir = .output := by
  cases hd : s.pinDir with
  | output => rfl
  | input => have := (h.2.1 hd).2; omega

theorem PinAt.input {k : Nat} (h : PinAt true k s) (hk : 5 ≤ k) : s.pinDir = .input :=
  h.2.2 ⟨rfl, hk⟩

theorem PinAt.atRest {read : Bool} {k : Nat} (h : PinAt read k s) (hk : k = 0 ∨ k = 3 ∨ k = 4)
    (hc : s.configured = true) : AtRest s where
  configured := hc
  pinOut := by
    cases ho : s.pinOut with
    | true => rfl
    | false => have := h.1.1 ho; omega
  pinDir := h.output (by omega)

theorem AtRest.pinAt {k : Nat} (h : AtRest s) (read : Bool) (hk : k = 0 ∨ k = 3 ∨ k = 4) :
    PinAt read k s := by
  have : ¬(k = 1 ∨ k = 2) := by omega
  have : ¬ 5 ≤ k := by omega
  simp [PinAt, h.pinOut, h.pinDir, *]

end

/-- The invariant of a configured OWM, by the work in progress. -/
structure InWork (w : PhaseWork) (s : State) : Prop where
  configured : s.configured = true
  bitcnt : s.bitcnt < w.frameBits
  slot : s.slot < w.slotEvents
  pin : PinAt w.isRead s.slot s
  regs : w.RegsOk s

theorem InWork.inv {s : State} (h : InWork s.seq.work s) : Inv s where
  position := ⟨frameBits_eq_work _ ▸ h.bitcnt, slotEvents_eq_work _ ▸ h.slot⟩
  configured := .inl h.configured
  pin := fun _ => isRead_eq_work _ ▸ h.pin
  regs := (regsOk_iff_work s).2 h.regs

theorem Inv.inWork {s : State} (h : Inv s) (hc : s.configured = true) : InWork s.seq.work s where
  configured := hc
  bitcnt := frameBits_eq_work _ ▸ h.position.1
  slot := slotEvents_eq_work _ ▸ h.position.2
  pin := isRead_eq_work _ ▸ h.pin hc
  regs := (regsOk_iff_work s).1 h.regs

/-! ### The first position of a phase -/

theorem frameBits_pos (w : PhaseWork) : 0 < w.frameBits := by
  cases w <;> simp [PhaseWork.frameBits]

theorem slotEvents_pos (w : PhaseWork) : 0 < w.slotEvents := by
  cases w <;> simp [PhaseWork.slotEvents]

/-- A phase entered with the pin at rest meets the invariant if it finds its operand (R31). -/
theorem AtRest.inv_atPhase {s : State} (h : AtRest s) {q : Seq} (hr : q.work.RegsOk (atPhase q s)) :
    Inv (atPhase q s) :=
  InWork.inv ⟨h.configured, frameBits_pos _, slotEvents_pos _, h.pinAt _ (.inl rfl), hr⟩

/-- Before `INIT` nothing is asked of the pin (R225). -/
theorem inv_of_unconfigured {s : State} (hs : s.seq = .idle ∨ s.seq = .i0) (hb : s.bitcnt = 0)
    (hz : s.slot = 0) (hc : s.configured = false) : Inv s where
  position := by
    rw [PositionOk, hb, hz, frameBits_eq_work, slotEvents_eq_work]
    exact ⟨frameBits_pos _, slotEvents_pos _⟩
  configured := .inr hs
  pin := fun h => by simp [hc] at h
  regs := (regsOk_iff_work s).2 <| by
    rcases hs with hs | hs <;> simp [hs, Seq.work, PhaseWork.RegsOk]

/-- Settles O3: nothing is configured at reset, and OWM is idle. -/
theorem invariantAtReset : Obligations.InvariantAtReset :=
  inv_of_unconfigured (.inl rfl) rfl rfl rfl

/-- The hardware reset ends in such a state too (R221, R222). -/
theorem inv_hardwareReset (s : State) : Inv (hardwareReset s) :=
  inv_of_unconfigured (.inl rfl) rfl rfl rfl

end Sys2Proof.Machine

/-! ## Proofs: one step from a state that meets the invariant (R40, R48)

A work takes a next step, and the invariant holds after it. Both are proved at once (`Lands`): a
slot takes its next event because the pin is where the invariant says. -/

namespace Sys2Proof.Machine

open Sys2Proof

/-- `r` answers a next state, and `P` holds of it. -/
def Lands (P : State → Prop) (r : Result) : Prop := ∃ t, r = .next t ∧ P t

section
variable {P : State → Prop} {done : State → Result} {s : State}

theorem lands_next {t : State} (h : P t) : Lands P (.next t) := ⟨t, rfl, h⟩

theorem lands_emit {e : Event} {k : State → Result} (hp : pinRule e s.pinDir = none)
    (hk : Lands P (k (recordEvent e s))) : Lands P (emit e k s) := by
  simpa [emit, hp] using hk

theorem lands_readReg {α : Type} {r : DataReg} {v : Option α} {k : α → Result} (hv : v.isSome)
    (hk : ∀ a, v = some a → Lands P (k a)) : Lands P (readReg r v k) := by
  obtain ⟨a, rfl⟩ := Option.isSome_iff_exists.1 hv
  exact hk a rfl

theorem lands_nextBit {n : Nat} (hb : s.bitcnt < n)
    (hmid : s.bitcnt + 1 < n → P { s with bitcnt := s.bitcnt + 1, slot := 0 })
    (hdone : Lands P (done { s with bitcnt := 0, slot := 0 })) : Lands P (nextBit n done s) := by
  obtain h | h : s.bitcnt + 1 < n ∨ s.bitcnt + 1 = n := by omega
  · rw [nextBit_of_lt h]
    exact lands_next (hmid h)
  · rw [nextBit_of_eq h]
    exact hdone

/-- A phase entered with the pin at rest. -/
theorem lands_goto {q : Seq} (h : AtRest s) (hr : q.work.RegsOk (atPhase q s)) :
    Lands Inv (goto q s) :=
  lands_next (h.inv_atPhase hr)

/-! ### The slots -/

/-- What an event of a slot leaves alone. -/
structure Continues (s t : State) : Prop where
  seq : t.seq = s.seq
  bitcnt : t.bitcnt = s.bitcnt
  byte : t.byte = s.byte
  raw : t.raw = s.raw
  serial : t.serial = s.serial
  params : t.params = s.params

theorem continues_recordEvent (e : Event) (s : State) : Continues s (recordEvent e s) := by
  constructor <;> simp

theorem continues_nextSlot (e : Event) (s : State) :
    Continues s { recordEvent e s with slot := (recordEvent e s).slot + 1 } := by
  constructor <;> simp

theorem configured_recordEvent {e : Event} (h : s.configured = true) :
    (recordEvent e s).configured = true := by
  cases e <;> simp [recordEvent_configured, h]

/-- The four events with the line driven: the pin is where R39 says in them, and at rest after. -/
theorem lands_drive {read : Bool} {hold pad : Nat} (hc : s.configured = true) (hk : s.slot < 4)
    (hp : PinAt read s.slot s)
    (hmid : ∀ t, Continues s t → t.configured = true → t.bit = s.bit → t.slot = s.slot + 1 →
      t.slot < 4 → PinAt read t.slot t → P t)
    (hdone : ∀ t, Continues s t → t.bit = s.bit → t.slot = 3 → AtRest t → Lands P (done t)) :
    Lands P (drive hold pad done s) := by
  have mid : ∀ e, s.slot < 3 → PinAt read (s.slot + 1) (recordEvent e s) →
      Lands P (nextSlot (recordEvent e s)) := fun e h3 hp =>
    lands_next (hmid _ (continues_nextSlot e s) (configured_recordEvent hc) (recordEvent_bit e s)
      (by simp) (by simp; omega) ((recordEvent_slot e s).symm ▸ hp))
  have hd : s.pinDir = .output := hp.output (by omega)
  unfold PinAt at hp mid
  obtain hz | hz | hz | hz : s.slot = 0 ∨ s.slot = 1 ∨ s.slot = 2 ∨ s.slot = 3 := by omega
  all_goals simp only [drive, hz] at hp mid ⊢
  · exact lands_emit (by simp [pinRule, hd])
      (mid _ (by omega) (by simp [recordEvent_pinOut, recordEvent_pinDir, hp]))
  · exact lands_emit rfl (mid _ (by omega) (by simp [recordEvent_pinOut, recordEvent_pinDir, hp]))
  · exact lands_emit (by simp [pinRule, hd])
      (mid _ (by omega) (by simp [recordEvent_pinOut, recordEvent_pinDir, hp]))
  · refine lands_emit rfl
      (hdone _ (continues_recordEvent _ _) (recordEvent_bit _ _) hz ⟨hc, ?_, hd⟩)
    simpa [recordEvent_pinOut] using hp.1

/-- A read slot: the same, and `BIT` holds a value from the sample on (R102, R106). -/
theorem lands_readSlot (hc : s.configured = true) (hk : s.slot < 8) (hp : PinAt true s.slot s)
    (hbit : 6 ≤ s.slot → s.bit.isSome)
    (hmid : ∀ t, Continues s t → t.configured = true → t.slot < 8 → 0 < t.slot →
      PinAt true t.slot t → (6 ≤ t.slot → t.bit.isSome) → P t)
    (hdone : ∀ t, Continues s t → t.bit.isSome → AtRest t → Lands P (done t)) :
    Lands P (readSlot done s) := by
  have mid : ∀ e, 4 ≤ s.slot → s.slot < 7 → s.slot ≠ 5 → PinAt true (s.slot + 1) (recordEvent e s) →
      Lands P (nextSlot (recordEvent e s)) := fun e h4 h7 h5 hp =>
    lands_next (hmid _ (continues_nextSlot e s) (configured_recordEvent hc) (by simp; omega)
      (by simp) ((recordEvent_slot e s).symm ▸ hp)
      fun h => by simpa using hbit (by simp at h; omega))
  by_cases h4 : s.slot < 4
  · rw [readSlot_eq_drive done h4]
    refine lands_drive hc h4 hp ?_ ?_
    · intro t ht htc htb hts hlt htp
      exact hmid t ht htc (by omega) (by omega) htp (by omega)
    · intro t ht htb hts hr
      exact lands_next (hmid _ ⟨ht.1, ht.2, ht.3, ht.4, ht.5, ht.6⟩ hr.configured (by simp [hts])
        (by simp) (by simp only [hts]; exact hr.pinAt true (.inr (.inr rfl))) (by simp [hts]))
  · have hi : 5 ≤ s.slot → s.pinDir = .input := hp.input
    unfold PinAt at hp mid
    obtain hz | hz | hz | hz : s.slot = 4 ∨ s.slot = 5 ∨ s.slot = 6 ∨ s.slot = 7 := by omega
    all_goals simp only [readSlot, hz] at hp hi hbit mid ⊢
    · exact lands_emit rfl (mid _ (by omega) (by omega) (by omega)
        (by simp [recordEvent_pinOut, recordEvent_pinDir, hp]))
    · refine lands_emit (by simp [pinRule, hi]) (lands_next (hmid _ ?_ hc ?_ ?_ ?_ ?_))
      · constructor <;> simp
      · simp [hz]
      · simp
      · simp [PinAt, recordEvent_pinOut, recordEvent_pinDir, hp, hz]
      · simp
    · exact lands_emit rfl (mid _ (by omega) (by omega) (by omega)
        (by simp [recordEvent_pinOut, recordEvent_pinDir, hp]))
    · refine lands_emit rfl
        (hdone _ (continues_recordEvent _ _) (by simpa using hbit) ⟨hc, ?_, rfl⟩)
      simpa [recordEvent_pinOut] using hp.1

/-! ### The frames -/

/-- A byte frame on its way with `v`: `BYTE` holds it, and `BIT` the bit of the slot (R54, R120). -/
structure Sending (v : Byte) (s : State) : Prop where
  configured : s.configured = true
  bitcnt : s.bitcnt < 8
  slot : s.slot < 5
  pin : PinAt false s.slot s
  byte : s.byte = some v
  bit : 1 ≤ s.slot → s.bit = some (bitOfByte v s.bitcnt)

theorem Sending.loadBit_eq {v : Byte} (h : Sending v s) :
    loadBit v s = { s with bit := some (bitOfByte v s.bitcnt) } := by
  unfold loadBit
  split
  · rfl
  · rw [← h.bit (by omega)]

theorem Sending.lands_byteFrame {v : Byte} (h : Sending v s)
    (hin : ∀ t, t.seq = s.seq → t.params = s.params → Sending v t → P t)
    (hdone : ∀ t, AtRest t → Lands P (done t)) : Lands P (byteFrame done s) := by
  have hload := h.loadBit_eq
  obtain ⟨hc, hb, hk, hp, hv, -⟩ := h
  simp only [byteFrame, hv, readReg]
  by_cases h4 : s.slot = 4
  · have hr : AtRest s := hp.atRest (.inr (.inr h4)) hc
    simp only [h4]
    refine lands_emit rfl (lands_nextBit hb (fun h8 => ?_) (hdone _ ⟨hr.1, hr.2, hr.3⟩))
    exact hin _ rfl rfl ⟨hc, h8, by simp, hr.pinAt _ (.inl rfl), hv, by simp⟩
  · simp only [hload]
    rw [writeSlot_eq_drive]
    refine lands_drive (s := { s with bit := some (bitOfByte v s.bitcnt) })
      hc (by simp; omega) hp ?_ ?_
    · intro t ht htc htb _ hlt htp
      refine hin t ht.seq ht.params ⟨htc, ?_, by omega, htp, ht.byte.trans hv, ?_⟩
      · rw [ht.bitcnt]; exact hb
      · rw [ht.bitcnt]; exact fun _ => htb
    · intro t ht htb hts hr
      refine lands_next (hin _ ht.seq ht.params ⟨hr.configured, ?_, ?_, ?_, ht.byte.trans hv, ?_⟩)
      · rw [ht.bitcnt]; exact hb
      · simp [hts]
      · simp only [hts]; exact hr.pinAt _ (.inr (.inr rfl))
      · rw [ht.bitcnt]; exact fun _ => htb

/-- A response frame on its way: the accumulator holds a value from the first event on (R48, R80). -/
structure Reading {w : Nat} (g : Target w) (s : State) : Prop where
  configured : s.configured = true
  bitcnt : s.bitcnt < w
  slot : s.slot < 8
  pin : PinAt true s.slot s
  bit : 6 ≤ s.slot → s.bit.isSome
  acc : s.atFrameStart = false → (g.get s).isSome

theorem Continues.target_get {w : Nat} {g : Target w} (hg : g.Lawful) {t : State}
    (h : Continues s t) : g.get t = g.get s :=
  hg.get_congr t s h.byte h.raw h.serial

theorem Target.Lawful.get_put_isSome {w : Nat} {g : Target w} (hg : g.Lawful) (a : BitVec w)
    (s : State) (k z : Nat) : (g.get { g.put a s with bitcnt := k, slot := z }).isSome := by
  have h : g.get { g.put a s with bitcnt := k, slot := z } = g.get (g.put a s) :=
    hg.get_congr _ _ rfl rfl rfl
  simp only [h, hg.get_put, Option.isSome_some]

/-- Where the frame has been cleared, or is under way. -/
theorem Reading.lands_cleared {w : Nat} {g : Target w} (hg : g.Lawful) (h : Reading g s)
    (hacc : (g.get s).isSome)
    (hin : ∀ t, t.seq = s.seq → Reading g t → P t)
    (hdone : ∀ t, AtRest t → (g.get t).isSome → Lands P (done t)) :
    Lands P (readSlot (g.endSlot done) s) := by
  refine lands_readSlot h.configured h.slot h.pin h.bit ?_ ?_
  · intro t ht htc hlt _ htp htb
    exact hin t ht.seq ⟨htc, ht.bitcnt ▸ h.bitcnt, hlt, htp, htb, fun _ => ht.target_get hg ▸ hacc⟩
  · intro t ht htb hr
    have hw : t.bitcnt < w := ht.bitcnt ▸ h.bitcnt
    refine lands_readReg htb fun b _ => lands_readReg (ht.target_get hg ▸ hacc) fun a _ => ?_
    refine lands_nextBit hw (fun h8 => ?_) (hdone _ ⟨hr.1, hr.2, hr.3⟩ (hg.get_put_isSome _ _ _ _))
    exact hin _ ht.seq ⟨hr.configured, h8, by simp, hr.pinAt _ (.inl rfl), by simp,
      fun _ => hg.get_put_isSome _ _ _ _⟩

theorem Reading.lands_frame {w : Nat} {g : Target w} (hg : g.Lawful) (h : Reading g s)
    (hin : ∀ t, t.seq = s.seq → Reading g t → P t)
    (hdone : ∀ t, AtRest t → (g.get t).isSome → Lands P (done t)) : Lands P (g.frame done s) := by
  by_cases hz : s.atFrameStart = true
  · rw [frame_of_start g hz]
    have hput : (g.get (g.put 0 s)).isSome := by rw [hg.get_put]; rfl
    exact Reading.lands_cleared hg (s := g.put 0 s)
      ⟨h.configured, h.bitcnt, h.slot, h.pin, h.bit, fun _ => hput⟩ hput hin hdone
  · rw [frame_of_not_start g hz]
    exact h.lands_cleared hg (h.acc (by simpa using hz)) hin hdone

/-- A poll ends at rest, in the delay phase or by its exit (R138). -/
theorem lands_pollOnce {q : Seq} (hc : s.configured = true) (hk : s.slot < 8)
    (hp : PinAt true s.slot s) (hbit : 6 ≤ s.slot → s.bit.isSome)
    (hmid : ∀ t, Continues s t → t.configured = true → t.slot < 8 → 0 < t.slot →
      PinAt true t.slot t → (6 ≤ t.slot → t.bit.isSome) → P t)
    (hwait : ∀ t, AtRest t → P (atPhase q t))
    (hexit : ∀ t, AtRest t → Lands P (done t)) : Lands P (pollOnce q done s) := by
  refine lands_readSlot hc hk hp hbit hmid fun t _ htb hr => lands_readReg htb fun b _ => ?_
  split
  · exact hexit t hr
  · exact lands_next (hwait t hr)

end

/-! ### The phases -/

theorem work_after_poll {q q' : Seq} (h : q.work = .poll q') : q'.work = .delay := by
  cases q with
  | x op => cases op <;> simp [Seq.work] at h; simp [← h, Seq.work]
  | _ => simp [Seq.work] at h <;> simp [← h, Seq.work]

/-- Only the interpretation of `RAW` begins with a register to read, and `ACC16` comes before it. -/
theorem regsOk_after {q : Seq} {s : State} (h : q.work = .acc16 → s.raw.isSome) :
    q.after.work.RegsOk (atPhase q.after s) := by
  cases q with
  | x op => cases op <;> simp [Seq.after, Seq.work, PhaseWork.RegsOk]
  | t7 => exact h rfl
  | _ => simp [Seq.after, Seq.work, PhaseWork.RegsOk, State.atFrameStart]

theorem work_eq_nothing_iff (q : Seq) : q.work = .nothing ↔ q = .idle := by
  cases q with
  | x op => cases op <;> simp [Seq.work]
  | _ => simp [Seq.work]

theorem work_eq_configure_iff (q : Seq) : q.work = .configure ↔ q = .i0 := by
  cases q with
  | x op => cases op <;> simp [Seq.work]
  | _ => simp [Seq.work]

theorem InWork.sending_of_writeByte {s : State} (h : InWork .writeByte s) : ∃ v, Sending v s := by
  obtain ⟨hc, hb, hk, hp, hbyte, hbit⟩ := h
  obtain ⟨v, hv⟩ := Option.isSome_iff_exists.1 hbyte
  exact ⟨v, hc, hb, hk, hp, hv, by simpa [hv] using hbit⟩

theorem Sending.inWork_writeByte {v : Byte} {s : State} (h : Sending v s) :
    InWork .writeByte s where
  configured := h.configured
  bitcnt := h.bitcnt
  slot := h.slot
  pin := h.pin
  regs := ⟨by simp [h.byte], by simpa [h.byte] using h.bit⟩

/-- The byte a sequencer sends is loaded at the first event of the frame (R120). -/
theorem InWork.lands_sendByte {k : SentCommand} {P : State → Prop} {done : State → Result}
    {s : State} (h : InWork (.send k) s)
    (hin : ∀ t, t.seq = s.seq → t.params = s.params →
      Sending (s.params.codes.code k.toCommand) t → P t)
    (hdone : ∀ t, AtRest t → Lands P (done t)) :
    Lands P (sendByte (s.params.codes.code k.toCommand) done s) := by
  obtain ⟨hc, hb, hk, hp, hbyte, hbit⟩ := h
  by_cases hz : s.atFrameStart = true
  · rw [sendByte_of_start _ hz]
    simp only [State.atFrameStart, decide_eq_true_eq] at hz
    exact Sending.lands_byteFrame (s := { s with byte := some (s.params.codes.code k.toCommand) })
      ⟨hc, hb, hk, hp, rfl, by simp [hz.2]⟩ hin hdone
  · rw [sendByte_of_not_start _ hz]
    have hv := hbyte (by simpa using hz)
    exact Sending.lands_byteFrame ⟨hc, hb, hk, hp, hv, by simpa [hv] using hbit⟩ hin hdone

theorem Sending.inWork_send {k : SentCommand} {s : State}
    (h : Sending (s.params.codes.code k.toCommand) s) : InWork (.send k) s where
  configured := h.configured
  bitcnt := h.bitcnt
  slot := h.slot
  pin := h.pin
  regs := ⟨fun _ => h.byte, by simpa [h.byte] using h.bit⟩

theorem inWork_readByte_iff (s : State) : InWork .readByte s ↔ Reading byteTarget s :=
  ⟨fun ⟨hc, hb, hk, hp, hbit, hacc⟩ => ⟨hc, hb, hk, hp, hbit, hacc⟩,
    fun ⟨hc, hb, hk, hp, hbit, hacc⟩ => ⟨hc, hb, hk, hp, hbit, hacc⟩⟩

theorem inWork_acc16_iff (s : State) : InWork .acc16 s ↔ Reading rawTarget s :=
  ⟨fun ⟨hc, hb, hk, hp, hbit, hacc⟩ => ⟨hc, hb, hk, hp, hbit, hacc⟩,
    fun ⟨hc, hb, hk, hp, hbit, hacc⟩ => ⟨hc, hb, hk, hp, hbit, hacc⟩⟩

theorem inWork_acc64_iff (s : State) : InWork .acc64 s ↔ Reading serialTarget s :=
  ⟨fun ⟨hc, hb, hk, hp, hbit, hacc⟩ => ⟨hc, hb, hk, hp, hbit, hacc⟩,
    fun ⟨hc, hb, hk, hp, hbit, hacc⟩ => ⟨hc, hb, hk, hp, hbit, hacc⟩⟩

/-- `INIT` brings the pin to rest itself, whatever it was (R38, R150). -/
theorem lands_configure {P : State → Prop} {q : Seq} {s : State}
    (h : ∀ t, AtRest t → Lands P (goto q t)) : Lands P (PhaseWork.configure.run q s) :=
  lands_emit (e := .cfg true _) (s := s) (by cases s.pinDir <;> rfl) (h _ ⟨rfl, rfl, rfl⟩)

/-- The step of a work stays in its phase or goes on to the next. -/
theorem InWork.run_lands {w : PhaseWork} {q : Seq} {s : State} (h : InWork w s)
    (hw : w ≠ .nothing) (hpoll : ∀ q', w = .poll q' → q'.work = .delay)
    (hin : ∀ t, t.seq = s.seq → InWork w t → Inv t)
    (hnext : ∀ t, AtRest t → (w = .acc16 → t.raw.isSome) → Lands Inv (goto q t)) :
    Lands Inv (w.run q s) := by
  have ⟨hc, hbit, hslot, hpin, hregs⟩ := h
  cases w with
  | nothing => exact absurd rfl hw
  | configure => exact lands_configure fun t hr => hnext t hr nofun
  | pulse =>
    rw [PhaseWork.run, resetPulse_eq_drive]
    refine lands_drive hc hslot hpin ?_ fun t _ _ _ hr => hnext t hr nofun
    exact fun t ht htc _ _ hlt htp => hin t ht.seq ⟨htc, ht.bitcnt ▸ hbit, hlt, htp, trivial⟩
  | writeBit =>
    refine lands_readReg hregs fun b hb => ?_
    rw [writeSlot_eq_drive]
    refine lands_drive hc hslot hpin ?_ fun t _ _ _ hr => hnext t hr nofun
    exact fun t ht htc htb _ hlt htp => hin t ht.seq
      ⟨htc, ht.bitcnt ▸ hbit, hlt, htp, by simp [PhaseWork.RegsOk, htb, hb]⟩
  | readBit =>
    refine lands_readSlot hc hslot hpin hregs ?_ fun t _ _ hr => hnext t hr nofun
    exact fun t ht htc hlt _ htp htb => hin t ht.seq ⟨htc, ht.bitcnt ▸ hbit, hlt, htp, htb⟩
  | poll wait =>
    refine lands_pollOnce hc hslot hpin hregs ?_ ?_ fun t hr => hnext t hr nofun
    · exact fun t ht htc hlt _ htp htb => hin t ht.seq ⟨htc, ht.bitcnt ▸ hbit, hlt, htp, htb⟩
    · exact fun t ht => ht.inv_atPhase (by rw [hpoll wait rfl]; trivial)
  | delay =>
    have hr : AtRest s := hpin.atRest (.inl (Nat.lt_one_iff.1 hslot)) hc
    exact lands_emit (e := .dlyMs _) rfl (hnext _ ⟨hr.1, hr.2, hr.3⟩ nofun)
  | writeByte =>
    obtain ⟨v, hv⟩ := h.sending_of_writeByte
    exact hv.lands_byteFrame (fun t ht _ h => hin t ht h.inWork_writeByte)
      fun t hr => hnext t hr nofun
  | send k =>
    exact h.lands_sendByte (fun t ht htp h => hin t ht (Sending.inWork_send (htp ▸ h)))
      fun t hr => hnext t hr nofun
  | readByte =>
    exact ((inWork_readByte_iff s).1 h).lands_frame byteTarget_lawful
      (fun t ht h => hin t ht ((inWork_readByte_iff t).2 h)) fun t hr _ => hnext t hr nofun
  | acc16 =>
    exact ((inWork_acc16_iff s).1 h).lands_frame rawTarget_lawful
      (fun t ht h => hin t ht ((inWork_acc16_iff t).2 h)) fun t hr hraw => hnext t hr fun _ => hraw
  | acc64 =>
    exact ((inWork_acc64_iff s).1 h).lands_frame serialTarget_lawful
      (fun t ht h => hin t ht ((inWork_acc64_iff t).2 h)) fun t hr _ => hnext t hr nofun
  | decode =>
    have hr : AtRest s := hpin.atRest (.inl (Nat.lt_one_iff.1 hslot)) hc
    exact lands_readReg hregs fun raw _ => hnext _ ⟨hr.1, hr.2, hr.3⟩ nofun

/-- The step of a phase is taken, and keeps the invariant. -/
theorem phaseStep_lands {s : State} (h : Inv s) (hb : s.seq ≠ .idle) : Lands Inv s.phaseStep := by
  by_cases h0 : s.seq = .i0
  · rw [State.phaseStep, h0]
    exact lands_configure fun t hr => lands_goto hr trivial
  · have hc : s.configured = true := h.configured.resolve_right (by simp [hb, h0])
    exact (h.inWork hc).run_lands (mt (work_eq_nothing_iff _).1 hb) (fun _ => work_after_poll)
      (fun t ht h => InWork.inv (ht ▸ h)) fun t hr hraw => lands_goto hr (regsOk_after hraw)

/-! ### The requests -/

/-- An accepted request has been configured for, unless it is `INIT`'s (R225). -/
theorem configured_of_accepted {i : Instr} {s : State} (h : i.refusal s = none) (hi : i ≠ .init) :
    s.configured = true := by
  cases hc : s.configured with
  | true => rfl
  | false => by_cases hx : i.isPublic = false ∧ s.params.exposeInternalOps = false <;>
      simp [Instr.refusal, hi, hc, hx] at h

/-- A lone `DECODE_TEMP` is accepted with a value in `RAW` (R89). -/
theorem raw_of_accepted {s : State} (h : Instr.decodeTemp.refusal s = none) : s.raw.isSome := by
  cases hr : s.raw with
  | none =>
    have hc := configured_of_accepted h nofun
    cases hx : s.params.exposeInternalOps <;> simp [Instr.refusal, Instr.isPublic, hr, hc, hx] at h
  | some a => rfl

/-- The first phase finds the operand the acceptance loaded (R87, R89). -/
theorem regsOk_entry {i : Instr} {s : State} (h : i.refusal s = none) :
    i.entry.work.RegsOk (atPhase i.entry (i.load s)) := by
  cases i with
  | decodeTemp => exact raw_of_accepted h
  | _ =>
    simp [Instr.entry, Instr.phases, Instr.load, Seq.work, PhaseWork.RegsOk, State.atFrameStart]

/-- A configured OWM that is idle has the pin at rest (R39). -/
theorem Inv.atRest_of_idle {s : State} (h : Inv s) (hi : s.seq = .idle) (hc : s.configured = true) :
    AtRest s := by
  have ⟨_, _, hslot, hpin, _⟩ := h.inWork hc
  rw [hi] at hslot
  exact hpin.atRest (.inl (Nat.lt_one_iff.1 hslot)) hc

theorem AtRest.load {s : State} (h : AtRest s) (i : Instr) : AtRest (i.load s) := by
  cases i <;> exact ⟨h.configured, h.pinOut, h.pinDir⟩

/-- The first phase of an accepted request meets the invariant. -/
theorem Inv.accept {i : Instr} {s : State} (h : Inv s) (hi : s.seq = .idle)
    (hr : i.refusal s = none) : Inv (atPhase i.entry (i.load s)) := by
  by_cases hc : s.configured = true
  · exact ((h.atRest_of_idle hi hc).load i).inv_atPhase (regsOk_entry hr)
  · obtain rfl : i = .init := by_contra fun hn => hc (configured_of_accepted hr hn)
    exact inv_of_unconfigured (.inr rfl) rfl rfl (by simpa [Instr.load] using hc)

/-! ### The steps -/

/-- The host's moves are no part of the invariant. -/
theorem Inv.withHost {s : State} (h : Inv s) (l : List HostMove) : Inv { s with host := l } :=
  ⟨h.position, h.configured, h.pin, h.regs⟩

/-- The instruction in progress goes on. -/
theorem exec_current_lands {i : Instr} {s : State} (h : Inv s) (hc : s.current = some i) :
    Lands Inv (exec i s) := by
  have hb : s.seq ≠ .idle := fun hi => by simp [(current_none_iff s).2 hi] at hc
  rw [exec_of_mem_phases (mem_phases_of_current hc)]
  exact phaseStep_lands h hb

/-- A request made of an idle OWM is refused or accepted. -/
theorem exec_idle_lands {i : Instr} {s : State} (h : Inv s) (hi : s.seq = .idle) :
    (∃ r, exec i s = .refused r) ∨ Lands Inv (exec i s) := by
  rw [exec_of_idle hi]
  cases hr : i.refusal s with
  | some r => exact .inl ⟨r, rfl⟩
  | none => exact .inr (lands_next (h.accept hi hr))

/-- A step is refused, OWM being idle and the host presenting a request, or it is taken and keeps
the invariant. -/
theorem step_lands {s : State} (h : Inv s) :
    (s.seq = .idle ∧ (∃ w l, s.host = .request w :: l ∨ s.host = .requestNow w :: l) ∧
      ∃ r, step s = .refused r) ∨ Lands Inv (step s) := by
  cases step_cases s with
  | reset l hh e => rw [e]; exact .inr (lands_next (inv_hardwareReset _))
  | carriesOn l i _ hc e =>
    rw [e]
    exact .inr (exec_current_lands (s := { s with host := l }) (h.withHost l) hc)
  | waits l _ _ e => rw [e]; exact .inr (lands_next (h.withHost l))
  | starts w l i hr hi _ e =>
    rw [e]
    exact (exec_idle_lands (s := { s with host := l }) (h.withHost l) hi).imp_left
      fun hx => ⟨hi, ⟨w, l, hr⟩, hx⟩
  | rejects w l r hr hi _ e => exact .inl ⟨hi, ⟨w, l, hr⟩, _, e⟩

theorem Lands.of_next {P : State → Prop} {r : Result} {t : State} (h : Lands P r)
    (ht : r = .next t) : P t := by
  obtain ⟨u, hu, hP⟩ := h
  cases hu.symm.trans ht
  exact hP

/-- Settles O4: a next state is one that `step_lands` speaks of. -/
theorem stepKeepsInvariant : Obligations.StepKeepsInvariant := by
  intro s t h ht
  obtain ⟨-, -, r, hr⟩ | hl := step_lands h
  · rw [hr] at ht; cases ht
  · exact hl.of_next ht

/-- Settles O5: the cases of `step_lands`. -/
theorem nothingStopsAnOperation : Obligations.NothingStopsAnOperation := by
  intro s h
  obtain ⟨hi, hw, r, hr⟩ | ⟨t, ht, -⟩ := step_lands h
  · refine ⟨fun f hf => ?_, fun hb => ?_, fun _ _ => hw⟩
    · rw [hr] at hf; cases hf
    · simp [State.busy, hi] at hb
  · refine ⟨fun f hf => ?_, fun _ => ⟨t, ht⟩, fun r hr => ?_⟩
    · rw [ht] at hf; cases hf
    · rw [ht] at hr; cases hr

/-- Nothing takes `CONFIGURED` away but the hardware reset, and `INIT` gives it (R38). -/
theorem exec_keeps_configured {i : Instr} {s t : State} (h : exec i s = .next t)
    (hc : s.configured = true) : t.configured = true := by
  cases exec_next h with
  | starts _ _ h => exact h.configured.trans hc
  | decodes _ _ _ h => subst h; exact hc
  | emits _ _ e _ h => exact h.configured.trans (configured_recordEvent hc)

/-- A step of `INIT` configures (R38, R150). -/
theorem configured_of_i0 {i : Instr} {s t : State} (hs : s.seq = .i0) (h : exec i s = .next t) :
    t.configured = true := by
  obtain ⟨hi, -, -⟩ | ⟨-, h⟩ := exec_next_cases h
  · rw [hs] at hi; cases hi
  · simp only [State.phaseStep, hs, Seq.work, PhaseWork.run] at h
    rw [goto_next (emit_next h).2]
    rfl

/-- Settles O6: the state the operation leaves is idle, meets the invariant, and is configured. -/
theorem endOfOperationRestoresPin : Obligations.EndOfOperationRestoresPin := by
  intro s t h hb hr ht hti
  have hb : s.seq ≠ .idle := by simpa [State.busy] using hb
  have hc : t.configured = true := by
    obtain ⟨l, ⟨i, hx⟩ | ⟨hi, -⟩⟩ := step_next hr ht
    · obtain hc | hi | h0 := h.configured
      · exact exec_keeps_configured hx hc
      · exact absurd hi hb
      · exact configured_of_i0 (s := { s with host := l }) h0 hx
    · exact absurd hi hb
  have hrest := (stepKeepsInvariant s t h ht).atRest_of_idle hti hc
  exact ⟨hc, hrest.pinDir, hrest.pinOut, by simp [State.pullsLow, hrest.pinOut]⟩

end Sys2Proof.Machine

/-! ## Proofs: frames (R27, R47)

What a step writes of the data registers, work by work, and then the rows of R47's table. -/

namespace Sys2Proof.Machine

open Sys2Proof

/-! ### The data registers -/

/-- Of the five data registers only those of `w` are written. -/
structure KeepsBut (w : List DataReg) (s t : State) : Prop where
  bit : .bit ∉ w → t.bit = s.bit
  byte : .byte ∉ w → t.byte = s.byte
  raw : .raw ∉ w → t.raw = s.raw
  temp : .temp ∉ w → t.temp = s.temp
  serial : .serial ∉ w → t.serial = s.serial

section
variable {w : List DataReg} {s t u : State}

theorem KeepsBut.refl (w : List DataReg) (s : State) : KeepsBut w s s := by constructor <;> simp

theorem KeepsBut.trans (h : KeepsBut w s t) (g : KeepsBut w t u) : KeepsBut w s u where
  bit hr := (g.bit hr).trans (h.bit hr)
  byte hr := (g.byte hr).trans (h.byte hr)
  raw hr := (g.raw hr).trans (h.raw hr)
  temp hr := (g.temp hr).trans (h.temp hr)
  serial hr := (g.serial hr).trans (h.serial hr)

theorem KeepsBut.mono {w' : List DataReg} (h : KeepsBut w s t) (hw : w ⊆ w') : KeepsBut w' s t where
  bit hr := h.bit fun hx => hr (hw hx)
  byte hr := h.byte fun hx => hr (hw hx)
  raw hr := h.raw fun hx => hr (hw hx)
  temp hr := h.temp fun hx => hr (hw hx)
  serial hr := h.serial fun hx => hr (hw hx)

theorem keeps_recordEvent (w : List DataReg) (e : Event) (s : State) :
    KeepsBut w s (recordEvent e s) := by
  constructor <;> simp

theorem keeps_advance (w : List DataReg) (e : Event) (s : State) : KeepsBut w s (advance e s) := by
  constructor <;> simp [advance]

/-- The step that takes the sample (R104). -/
theorem keeps_latch (hw : .bit ∈ w) (e : Event) (b : Bit) (s : State) :
    KeepsBut w s { advance e (dropSample s) with bit := some b } := by
  constructor <;> simp [advance, hw]

theorem keeps_loadBit (hw : .bit ∈ w) (v : Byte) (s : State) : KeepsBut w s (loadBit v s) := by
  unfold loadBit
  split <;> constructor <;> simp [hw]

/-- What follows the last event of a slot or a frame writes no data register. -/
def KeepsThen (done : State → Result) : Prop := ∀ w s t, done s = .next t → KeepsBut w s t

theorem keepsThen_goto (q : Seq) : KeepsThen (goto q) := fun w s t h => by
  rw [goto_next h]
  constructor <;> simp

theorem keepsThen_nextBit (n : Nat) {done : State → Result} (hd : KeepsThen done) :
    KeepsThen (nextBit n done) := fun w s t h => by
  obtain ⟨-, rfl⟩ | ⟨-, h⟩ := nextBit_next h
  · constructor <;> simp
  · have ⟨hbit, hbyte, hraw, htemp, hserial⟩ := hd w _ _ h
    exact ⟨hbit, hbyte, hraw, htemp, hserial⟩

variable {done : State → Result} (hd : KeepsThen done)
include hd

theorem keeps_resetPulse (h : resetPulse done s = .next t) : KeepsBut w s t := by
  obtain ⟨e, -, -, ⟨-, rfl⟩ | ⟨-, h⟩⟩ := resetPulse_next h
  · exact keeps_advance w e s
  · exact (keeps_recordEvent w e s).trans (hd w _ _ h)

theorem keeps_writeSlot {b : Bit} (h : writeSlot b done s = .next t) : KeepsBut w s t := by
  obtain ⟨e, -, -, ⟨-, rfl⟩ | ⟨-, h⟩⟩ := writeSlot_next h
  · exact keeps_advance w e s
  · exact (keeps_recordEvent w e s).trans (hd w _ _ h)

theorem keeps_readSlot (hw : .bit ∈ w) (h : readSlot done s = .next t) : KeepsBut w s t := by
  obtain ⟨e, -, -, -, ⟨-, rfl⟩ | ⟨-, h⟩⟩ | ⟨-, -, rfl⟩ := readSlot_next h
  · exact keeps_advance w e s
  · exact (keeps_recordEvent w e s).trans (hd w _ _ h)
  · exact keeps_latch hw _ _ s

theorem keeps_byteFrame (hw : .bit ∈ w) (h : byteFrame done s = .next t) : KeepsBut w s t := by
  obtain ⟨v, e, -, -, -, rfl | h⟩ := byteFrame_next h
  · exact (keeps_loadBit hw v s).trans (keeps_advance w e _)
  · exact (keeps_recordEvent w e s).trans (keepsThen_nextBit 8 hd w _ _ h)

theorem keeps_sendByte (hw : .bit ∈ w) (hb : .byte ∈ w) {v : Byte}
    (h : sendByte v done s = .next t) : KeepsBut w s t := by
  refine .trans ?_ (keeps_byteFrame hd hw h)
  split <;> constructor <;> simp [hb]

theorem keeps_pollOnce (hw : .bit ∈ w) {q : Seq} (h : pollOnce q done s = .next t) :
    KeepsBut w s t := by
  obtain ⟨e, -, -, -, rfl | rfl | h⟩ | ⟨-, rfl⟩ := pollOnce_next h
  · exact keeps_advance w e s
  · exact (keeps_recordEvent w e s).trans (keepsThen_goto q w _ _ rfl)
  · exact (keeps_recordEvent w e s).trans (hd w _ _ h)
  · exact keeps_latch hw _ _ s

theorem keeps_frame {n : Nat} {g : Target n} (hw : .bit ∈ w) (hg : ∀ a s, KeepsBut w s (g.put a s))
    (h : g.frame done s = .next t) : KeepsBut w s t := by
  obtain ⟨s', hs', h⟩ := responseFrame_next h
  have hclear : KeepsBut w s s' := by
    obtain rfl | rfl := hs'
    · exact .refl w _
    · exact hg 0 s
  refine hclear.trans ?_
  obtain ⟨e, -, -, -, rfl | ⟨b, -, h⟩⟩ | ⟨-, rfl⟩ := h
  · exact keeps_advance w e s'
  · obtain ⟨a, -, h⟩ := readReg_next h
    exact ((keeps_recordEvent w e s').trans (hg _ _)).trans (keepsThen_nextBit n hd w _ _ h)
  · exact keeps_latch hw _ _ s'

theorem keeps_decodeTempNow (hw : .temp ∈ w) (h : decodeTempNow done s = .next t) :
    KeepsBut w s t := by
  obtain ⟨raw, -, h⟩ := decodeTempNow_next h
  refine .trans ?_ (hd w _ _ h)
  constructor <;> simp [hw]

end

/-! ### The works -/

/-- The data registers a work writes. -/
def PhaseWork.writes : PhaseWork → List DataReg
  | .nothing | .configure | .pulse | .writeBit | .delay => []
  | .readBit | .poll _ | .writeByte => [.bit]
  | .send _ | .readByte => [.bit, .byte]
  | .acc16 => [.bit, .raw]
  | .acc64 => [.bit, .serial]
  | .decode => [.temp]

theorem run_keeps {w : PhaseWork} {q : Seq} {s t : State} (h : w.run q s = .next t) :
    KeepsBut w.writes s t := by
  have hd := keepsThen_goto q
  cases w with
  | nothing => cases h; exact .refl _ s
  | configure =>
    have hk := (emit_next (e := .cfg true s.params.pinSpeed) (k := goto q) h).2
    exact (keeps_recordEvent _ _ s).trans (hd _ _ _ hk)
  | pulse => exact keeps_resetPulse hd h
  | writeBit =>
    obtain ⟨b, -, h⟩ := readReg_next h
    exact keeps_writeSlot hd h
  | readBit => exact keeps_readSlot hd (by decide) h
  | writeByte => exact keeps_byteFrame hd (by decide) h
  | send k => exact keeps_sendByte hd (by simp [PhaseWork.writes]) (by simp [PhaseWork.writes]) h
  | poll wait => exact keeps_pollOnce hd (by simp [PhaseWork.writes]) h
  | delay =>
    rw [pollDelay_next h]
    exact (keeps_recordEvent _ _ s).trans (hd _ _ _ rfl)
  | readByte =>
    exact keeps_frame (g := byteTarget) hd (by decide)
      (fun a s => by constructor <;> simp [PhaseWork.writes, Target.put, byteTarget]) h
  | acc16 =>
    exact keeps_frame (g := rawTarget) hd (by decide)
      (fun a s => by constructor <;> simp [PhaseWork.writes, Target.put, rawTarget]) h
  | acc64 =>
    exact keeps_frame (g := serialTarget) hd (by decide)
      (fun a s => by constructor <;> simp [PhaseWork.writes, Target.put, serialTarget]) h
  | decode => exact keeps_decodeTempNow hd (by decide) h

/-- A work that only drives the line takes no sample and changes no direction (R100, R120, R137). -/
def PhaseWork.drives : PhaseWork → Bool
  | .pulse | .writeBit | .writeByte | .send _ => true
  | _ => false

theorem run_drives {w : PhaseWork} {q : Seq} {s t : State} (hw : w.drives = true)
    (h : w.run q s = .next t) : ∃ e, e.drivesOnly = true ∧ Emits e s t := by
  have hd := quiet_goto q
  cases w with
  | pulse => exact emits_resetPulse hd h
  | writeBit =>
    obtain ⟨b, -, h⟩ := readReg_next h
    exact emits_writeSlot hd h
  | writeByte => exact emits_byteFrame hd h
  | send k => exact emits_sendByte hd h
  | _ => cases hw

/-! ### The instructions: R47's table -/

end Sys2Proof.Machine

namespace Sys2Proof

open Machine

/-- The data registers an acceptance writes (R87; log 10). -/
def Instr.loads : Instr → List DataReg
  | .writeBit _ => [.bit]
  | .writeByte _ => [.byte]
  | _ => []

/-- The data registers an operation writes (R47). -/
def Instr.writes : Instr → List DataReg
  | .init | .reset => []
  | .writeBit _ | .readBit | .waitConv => [.bit]
  | .writeByte _ | .readByte | .cmdSkipRom | .cmdSearchRom | .cmdReadRom | .cmdConvertT
  | .cmdReadScratchpad => [.bit, .byte]
  | .acc16 => [.bit, .raw]
  | .acc64 => [.bit, .serial]
  | .decodeTemp => [.temp]
  | .getTemperature => [.bit, .byte, .raw, .temp]
  | .getSerialNumber => [.bit, .byte, .serial]

theorem Instr.loads_subset_writes (i : Instr) : i.loads ⊆ i.writes := by
  cases i <;> simp [loads, writes]

theorem Instr.phase_writes_subset {i : Instr} {q : Seq} (h : q ∈ i.phases) :
    q.work.writes ⊆ i.writes := by
  revert h
  cases i <;> simp +contextual [phases, or_imp, writes, Seq.work, PhaseWork.writes]

end Sys2Proof

namespace Sys2Proof.Machine

open Sys2Proof

theorem keeps_load (i : Instr) (s : State) : KeepsBut i.loads s (i.load s) := by
  cases i <;> constructor <;> simp [Instr.loads, Instr.load]

theorem quiet_load (i : Instr) (s : State) : Quiet s (i.load s) := by
  cases i <;> exact ⟨rfl, rfl, rfl, rfl, rfl, rfl, rfl, rfl, rfl, rfl⟩

/-- The registers a step writes, by the phase it is in. -/
theorem exec_keeps_phase {i : Instr} {s t : State} (h : exec i s = .next t) :
    s.seq = .idle ∧ KeepsBut i.loads s t ∨ s.seq ∈ i.phases ∧ KeepsBut s.seq.work.writes s t := by
  obtain ⟨hi, -, rfl⟩ | ⟨hp, h⟩ := exec_next_cases h
  · exact .inl ⟨hi, (keeps_load i s).trans (keepsThen_goto _ _ _ _ rfl)⟩
  · exact .inr ⟨hp, run_keeps h⟩

/-- An operation writes the registers of its row (R47). -/
theorem exec_keeps {i : Instr} {s t : State} (h : exec i s = .next t) : KeepsBut i.writes s t := by
  obtain ⟨-, hk⟩ | ⟨hp, hk⟩ := exec_keeps_phase h
  · exact hk.mono i.loads_subset_writes
  · exact hk.mono (Instr.phase_writes_subset hp)

theorem exec_keeps_host_params {i : Instr} {s t : State} (h : exec i s = .next t) :
    t.host = s.host ∧ t.params = s.params := by
  cases exec_next h with
  | starts _ _ h => exact ⟨h.host, h.params⟩
  | decodes _ _ _ h => subst h; exact ⟨rfl, rfl⟩
  | emits _ _ e _ h => exact ⟨h.host, h.params⟩

/-- `SIGN` and `TEMP` are written where `RAW` is interpreted (R27). -/
theorem exec_keeps_sign_temp {i : Instr} {s t : State} (hq : s.seq.decodes = false)
    (h : exec i s = .next t) : t.sign = s.sign ∧ t.temp = s.temp := by
  cases exec_next h with
  | starts _ _ h => exact ⟨h.sign, h.temp⟩
  | decodes hd => simp [hq] at hd
  | emits _ _ e _ h => exact ⟨h.sign, h.temp⟩

theorem recordEvent_configured_of_ne {e : Event} (h : ∀ od sp, e ≠ .cfg od sp) (s : State) :
    (recordEvent e s).configured = s.configured := by
  cases e with
  | cfg od sp => exact absurd rfl (h od sp)
  | _ => rfl

/-- Only `INIT` writes `CONFIGURED` (R38). -/
theorem exec_configured_eq {i : Instr} {s t : State} (hi : i ≠ .init) (h : exec i s = .next t) :
    t.configured = s.configured := by
  cases exec_next h with
  | starts _ _ h => exact h.configured
  | decodes _ _ _ h => subst h; rfl
  | emits _ _ e he h =>
    exact h.configured.trans (recordEvent_configured_of_ne (fun od sp hc => hi (he od sp hc).1) s)

/-- Settles O39: `INIT` is an acceptance and one event. -/
theorem initFrame : Obligations.InitFrame := by
  intro s t h
  obtain ⟨-, -, rfl⟩ | ⟨hp, h⟩ := exec_next_cases h
  · exact ⟨rfl, rfl, rfl, rfl, rfl, rfl, rfl, rfl, rfl, rfl⟩
  · obtain hs : s.seq = .i0 := List.mem_singleton.1 hp
    simp only [State.phaseStep, hs, Seq.work, PhaseWork.run] at h
    rw [goto_next (emit_next h).2]
    exact ⟨rfl, rfl, rfl, rfl, rfl, rfl, rfl, rfl, rfl, rfl⟩

/-- Settles O42: `DECODE_TEMP` is an acceptance and one assignment. -/
theorem decodeTempFrame : Obligations.DecodeTempFrame := by
  intro s t h
  obtain ⟨-, -, rfl⟩ | ⟨hp, h⟩ := exec_next_cases h
  · exact ⟨rfl, rfl, rfl, rfl, rfl, rfl, rfl, rfl, rfl, rfl, rfl, rfl⟩
  · obtain hs : s.seq = .x .decodeTemp := List.mem_singleton.1 hp
    simp only [State.phaseStep, hs, Seq.work, PhaseWork.run] at h
    obtain ⟨raw, -, h⟩ := decodeTempNow_next h
    rw [goto_next h]
    exact ⟨rfl, rfl, rfl, rfl, rfl, rfl, rfl, rfl, rfl, rfl, rfl, rfl⟩

/-- Settles O12: a step of an instruction that interprets nothing, or a wait. -/
theorem onlyDecodeTempWritesSignAndTemp : Obligations.OnlyDecodeTempWritesSignAndTemp := by
  intro s t h hr h8 hx
  have hq : s.seq.decodes = false := by simp [← Bool.not_eq_true, Seq.decodes_iff, h8, hx]
  obtain ⟨l, ⟨i, h⟩ | ⟨-, rfl⟩⟩ := step_next hr h
  · exact exec_keeps_sign_temp (s := { s with host := l }) hq h
  · exact ⟨rfl, rfl⟩

/-- Settles O8: the instruction in progress is what `step_of_current` runs; an idle OWM settles. -/
theorem stepCarriesOn : Obligations.StepCarriesOn := by
  intro s hw
  refine ⟨fun i hc => step_of_current hw hc, fun hi hh => ?_, current_none_iff s⟩
  exact step_of_settle (by simp [nextAction, hh, carryOn, (current_none_iff s).2 hi])

/-! ### The operations that write to the line -/

/-- `t` differs from `s` in the registers, the control position, `PIN_OUT` and the trace at most. -/
structure DrivesLine (s t : State) : Prop where
  sign : t.sign = s.sign
  pinDir : t.pinDir = s.pinDir
  configured : t.configured = s.configured
  params : t.params = s.params
  env : t.env = s.env
  draws : t.draws = s.draws
  host : t.host = s.host

theorem Quiet.drivesLine {s t : State} (h : Quiet s t) : DrivesLine s t :=
  ⟨h.sign, h.pinDir, h.configured, h.params, h.env, h.draws, h.host⟩

theorem Emits.drivesLine {e : Event} {s t : State} (he : e.drivesOnly = true) (h : Emits e s t) :
    DrivesLine s t where
  sign := h.sign
  pinDir := h.pinDir.trans (by cases e <;> simp_all [Event.drivesOnly, recordEvent_pinDir])
  configured := h.configured.trans (recordEvent_configured_of_ne (e.ne_cfg_of_drivesOnly he) s)
  params := h.params
  env := (h.unsampled (Event.noSample_of_drivesOnly he)).1
  draws := (h.unsampled (Event.noSample_of_drivesOnly he)).2
  host := h.host

theorem exec_drivesLine {i : Instr} {s t : State} (hi : ∀ q ∈ i.phases, q.work.drives = true)
    (h : exec i s = .next t) : DrivesLine s t := by
  obtain ⟨-, -, rfl⟩ | ⟨hp, h⟩ := exec_next_cases h
  · exact ((quiet_load i s).trans (quiet_goto _ _ _ rfl)).drivesLine
  · obtain ⟨e, he, h⟩ := run_drives (hi _ hp) h
    exact h.drivesLine he

/-- In progress, an operation of one phase writes what the phase writes. -/
theorem exec_keeps_of_busy {i : Instr} {q : Seq} {s t : State} (hi : i.phases = [q])
    (hb : s.busy = true) (h : exec i s = .next t) : KeepsBut q.work.writes s t := by
  obtain ⟨hs, -⟩ | ⟨hp, hk⟩ := exec_keeps_phase h
  · simp [State.busy, hs] at hb
  · rw [hi, List.mem_singleton] at hp
    exact hp ▸ hk

theorem command_drives {i : Instr} (h : i.command? ≠ none) :
    ∀ q ∈ i.phases, q.work.drives = true := by
  cases i <;> simp [Instr.command?] at h <;> simp [Instr.phases, Seq.work, PhaseWork.drives]

theorem command_writes {i : Instr} (h : i.command? ≠ none) : i.writes = [.bit, .byte] := by
  cases i <;> simp [Instr.command?] at h <;> rfl

/-- Settles O40: the line by `exec_drivesLine`, the registers by R47's rows, and in progress by the
one phase of the operation. -/
theorem writingOperationsFrame : Obligations.WritingOperationsFrame := by
  intro i s t hi h
  have hdrives : ∀ q ∈ i.phases, q.work.drives = true := by
    obtain ⟨b, rfl⟩ | ⟨v, rfl⟩ | rfl | hc := hi
    · simp [Instr.phases, Seq.work, PhaseWork.drives]
    · simp [Instr.phases, Seq.work, PhaseWork.drives]
    · simp [Instr.phases, Seq.work, PhaseWork.drives]
    · exact command_drives hc
  have hwrites : i.writes ⊆ [.bit, .byte] := by
    obtain ⟨b, rfl⟩ | ⟨v, rfl⟩ | rfl | hc := hi
    · simp [Instr.writes]
    · simp [Instr.writes]
    · simp [Instr.writes]
    · rw [command_writes hc]; exact List.Subset.refl _
  have hline := exec_drivesLine hdrives h
  have hregs := (exec_keeps h).mono hwrites
  refine ⟨hline.sign, hregs.raw (by decide), hregs.temp (by decide), hregs.serial (by decide),
    hline.pinDir, hline.configured, hline.params, hline.env, hline.draws, hline.host, ?_, ?_, ?_⟩
  · rintro rfl
    have hk := exec_keeps h
    exact ⟨hk.bit (by decide), hk.byte (by decide)⟩
  · rintro b rfl
    exact ⟨(exec_keeps h).byte (by simp [Instr.writes]), fun hb =>
      (exec_keeps_of_busy rfl hb h).bit (by decide)⟩
  · rintro v rfl hb
    exact (exec_keeps_of_busy rfl hb h).byte (by decide)

/-! ### The operations that read the line -/

/-- An operation starts idle, or is in a phase of its own. -/
theorem decodes_of_exec {i : Instr} {s t : State} (h : exec i s = .next t)
    (hi : s.seq ∈ i.phases → s.seq.decodes = false) : s.seq.decodes = false := by
  obtain ⟨hs, -, -⟩ | ⟨hp, -⟩ := exec_next_cases h
  · rw [hs]; rfl
  · exact hi hp

/-- Settles O41: each of the five is its row of R47, and none of their phases interprets `RAW`. -/
theorem readingOperationsFrame : Obligations.ReadingOperationsFrame := by
  intro i s t hi h
  have hphases : i ≠ .init ∧ ∀ q ∈ i.phases, q.decodes = false := by
    obtain rfl | rfl | rfl | rfl | rfl := hi <;> decide
  have hrow : .temp ∉ i.writes ∧ (i ≠ .readByte → .byte ∉ i.writes) ∧
      (i ≠ .acc16 → .raw ∉ i.writes) ∧ (i ≠ .acc64 → .serial ∉ i.writes) := by
    obtain rfl | rfl | rfl | rfl | rfl := hi <;> decide
  obtain ⟨hinit, hphases⟩ := hphases
  obtain ⟨htemp, hbyte, hraw, hserial⟩ := hrow
  obtain ⟨hhost, hparams⟩ := exec_keeps_host_params h
  have hk := exec_keeps h
  have hsign := (exec_keeps_sign_temp (decodes_of_exec h (hphases _)) h).1
  exact ⟨hsign, hk.temp htemp, exec_configured_eq hinit h, hparams, hhost,
    fun hi => hk.byte (hbyte hi), fun hi => hk.raw (hraw hi), fun hi => hk.serial (hserial hi)⟩

/-! ### The public operations -/

/-- With what a phase does to `BYTE`, distinct codes keep search-ROM's out of it (R10, R83). -/
theorem byteFollowsPhase_of {s t : State} (untouched : s.seq.sends = none → t.byte = s.byte)
    (sent : ∀ k, s.seq.sends = some k →
      t.byte = some (s.params.codes.code k.toCommand) ∨ s.atFrameStart = false ∧ t.byte = s.byte) :
    ByteFollowsPhase s t where
  untouched := untouched
  sent := sent
  neverSearchRom hw hne := by
    cases hk : s.seq.sends with
    | none => exact absurd (untouched hk) hne
    | some k =>
      obtain hb | ⟨-, hb⟩ := sent k hk
      · simpa [hb] using sentCode_ne_searchRom hw k
      · exact absurd hb hne

theorem work_of_sends {q : Seq} {k : SentCommand} (h : q.sends = some k) : q.work = .send k := by
  cases q with
  | x op => cases op <;> simp [Seq.sends] at h; simp [Seq.work, h]
  | _ => simp [Seq.sends] at h <;> simp [Seq.work, h]

theorem sendByte_byte {v : Byte} {q : Seq} {s t : State} (h : sendByte v (goto q) s = .next t) :
    t.byte = some v ∨ s.atFrameStart = false ∧ t.byte = s.byte := by
  obtain ⟨v', e, hv, -, -, h⟩ := sendByte_next h
  have hb : t.byte = some v' := by
    obtain rfl | h := h
    · exact (((keeps_loadBit (w := [.bit]) (by decide) v' _).trans (keeps_advance _ e _)).byte
        (by decide))
    · exact ((keeps_recordEvent [] e _).trans (keepsThen_nextBit 8 (keepsThen_goto q) _ _ _ h)).byte
        (by decide)
  obtain rfl | ⟨hz, hs⟩ := hv
  · exact .inl hb
  · exact .inr ⟨hz, hb.trans hs.symm⟩

theorem exec_byteFollowsPhase {i : Instr} {s t : State}
    (hi : ∀ q ∈ i.phases, q.sends = none → .byte ∉ q.work.writes) (hl : .byte ∉ i.loads)
    (h : exec i s = .next t) : ByteFollowsPhase s t := by
  refine byteFollowsPhase_of (fun hn => ?_) fun k hk => ?_
  · obtain ⟨-, hkeep⟩ | ⟨hp, hkeep⟩ := exec_keeps_phase h
    · exact hkeep.byte hl
    · exact hkeep.byte (hi _ hp hn)
  · obtain ⟨hi, -, -⟩ | ⟨-, h⟩ := exec_next_cases h
    · rw [hi] at hk; cases hk
    · rw [State.phaseStep, work_of_sends hk] at h
      exact sendByte_byte h

/-- Settles O43: R47's rows, and `BYTE` by phase; of the phases only `T8` interprets `RAW`. -/
theorem publicOperationsFrame : Obligations.PublicOperationsFrame := by
  intro s t
  constructor
  · intro h
    obtain ⟨hhost, hparams⟩ := exec_keeps_host_params h
    have hphases : ∀ q ∈ Instr.getTemperature.phases, q ≠ .t8 → q.decodes = false := by decide
    exact ⟨(exec_keeps h).serial (by decide), exec_configured_eq (by decide) h, hparams, hhost,
      fun h8 => exec_keeps_sign_temp (decodes_of_exec h fun hp => hphases _ hp h8) h,
      exec_byteFollowsPhase (by decide) (by decide) h⟩
  · intro h
    obtain ⟨hhost, hparams⟩ := exec_keeps_host_params h
    have hphases : ∀ q ∈ Instr.getSerialNumber.phases, q.decodes = false := by decide
    have hk := exec_keeps h
    have hsign := (exec_keeps_sign_temp (decodes_of_exec h (hphases _)) h).1
    exact ⟨hsign, hk.raw (by decide), hk.temp (by decide), exec_configured_eq (by decide) h,
      hparams, hhost, exec_byteFollowsPhase (by decide) (by decide) h⟩

end Sys2Proof.Machine

/-! ## Proofs: the fields no operation reads (R27, R149)

`SIGN`, `TEMP` and the host's moves are read by no operation: whatever they hold, a step answers the
same. -/

namespace Sys2Proof.Machine

open Sys2Proof

/-- `s` with other values in the fields that no operation reads. -/
def withUnread (g : Sign) (d : Option Half) (l : List HostMove) (s : State) : State :=
  { s with sign := g, temp := d, host := l }

/-- A change of the state, made in the next state. -/
def mapNext (f : State → State) : Result → Result
  | .next t => .next (f t)
  | .fault r => .fault r
  | .refused r => .refused r

/-- A step that answers the same whatever the unread fields hold, and leaves them. -/
def Unaware (k : State → Result) : Prop :=
  ∀ g d l s, k (withUnread g d l s) = mapNext (withUnread g d l) (k s)

section
variable {g : Sign} {d : Option Half} {l : List HostMove} {s : State} {k : State → Result}

@[simp] theorem withUnread_seq : (withUnread g d l s).seq = s.seq := rfl
@[simp] theorem withUnread_slot : (withUnread g d l s).slot = s.slot := rfl
@[simp] theorem withUnread_bit : (withUnread g d l s).bit = s.bit := rfl
@[simp] theorem withUnread_raw : (withUnread g d l s).raw = s.raw := rfl
@[simp] theorem withUnread_pinDir : (withUnread g d l s).pinDir = s.pinDir := rfl
@[simp] theorem withUnread_params : (withUnread g d l s).params = s.params := rfl

theorem recordEvent_withUnread (e : Event) (s : State) :
    recordEvent e (withUnread g d l s) = withUnread g d l (recordEvent e s) := by
  cases e <;> rfl

/-! ### The shared operations -/

theorem emit_withUnread (e : Event) (hk : Unaware k) (s : State) :
    emit e k (withUnread g d l s) = mapNext (withUnread g d l) (emit e k s) := by
  simp only [emit, withUnread_pinDir, recordEvent_withUnread, hk g d l]
  cases pinRule e s.pinDir <;> rfl

theorem readReg_withUnread {α : Type} (r : DataReg) (v : Option α) {k k' : α → Result}
    (h : ∀ a, k' a = mapNext (withUnread g d l) (k a)) :
    readReg r v k' = mapNext (withUnread g d l) (readReg r v k) := by
  cases v with
  | none => rfl
  | some a => exact h a

theorem unaware_nextSlot : Unaware nextSlot := fun _ _ _ _ => rfl

theorem unaware_goto (q : Seq) : Unaware (goto q) := fun _ _ _ _ => rfl

theorem unaware_nextBit (n : Nat) (hk : Unaware k) : Unaware (nextBit n k) := fun g d l s => by
  obtain h | h | h := lt_trichotomy (s.bitcnt + 1) n
  · rw [nextBit_of_lt h, nextBit_of_lt (s := withUnread g d l s) h]
    rfl
  · rw [nextBit_of_eq h, nextBit_of_eq (s := withUnread g d l s) h]
    exact hk g d l { s with bitcnt := 0, slot := 0 }
  · rw [nextBit_of_gt h, nextBit_of_gt (s := withUnread g d l s) h]
    rfl

theorem sample_withUnread {k : Bit → State → Result} (hk : ∀ b, Unaware (k b)) (s : State) :
    sample k (withUnread g d l s) = mapNext (withUnread g d l) (sample k s) := by
  have h : nextSample (withUnread g d l s) = nextSample s := nextSample_congr rfl rfl
  unfold sample
  rw [h]
  exact emit_withUnread _ (fun g d l s => hk _ g d l (dropSample s)) s

/-! ### The slots and the frames -/

theorem unaware_drive (hold pad : Nat) (hk : Unaware k) : Unaware (drive hold pad k) :=
  fun g d l s => by
    simp only [drive, withUnread_slot]
    split
    · exact emit_withUnread _ unaware_nextSlot s
    · exact emit_withUnread _ unaware_nextSlot s
    · exact emit_withUnread _ unaware_nextSlot s
    · exact emit_withUnread _ hk s
    · rfl

theorem unaware_resetPulse (hk : Unaware k) : Unaware (resetPulse k) := fun g d l s => by
  rw [resetPulse_eq_drive, resetPulse_eq_drive]
  exact unaware_drive _ _ hk g d l s

theorem unaware_writeSlot (b : Bit) (hk : Unaware k) : Unaware (writeSlot b k) := fun g d l s => by
  rw [writeSlot_eq_drive, writeSlot_eq_drive]
  exact unaware_drive _ _ hk g d l s

theorem unaware_readSlot (hk : Unaware k) : Unaware (readSlot k) := fun g d l s => by
  by_cases h4 : s.slot < 4
  · rw [readSlot_eq_drive k h4, readSlot_eq_drive k (s := withUnread g d l s) h4]
    exact unaware_drive _ _ unaware_nextSlot g d l s
  · simp only [readSlot, withUnread_slot]
    split
    case h_5 => exact emit_withUnread _ unaware_nextSlot s
    case h_6 => exact sample_withUnread (fun _ _ _ _ _ => rfl) s
    case h_7 => exact emit_withUnread _ unaware_nextSlot s
    case h_8 => exact emit_withUnread _ hk s
    case h_9 => rfl
    all_goals omega

theorem loadBit_withUnread (v : Byte) (s : State) :
    loadBit v (withUnread g d l s) = withUnread g d l (loadBit v s) := by
  by_cases h : s.slot = 0
  · rw [loadBit_of_zero v h, loadBit_of_zero v (s := withUnread g d l s) h]
    rfl
  · rw [loadBit_of_ne_zero v h, loadBit_of_ne_zero v (s := withUnread g d l s) h]

theorem unaware_byteFrame (hk : Unaware k) : Unaware (byteFrame k) := fun g d l s =>
  readReg_withUnread _ s.byte fun v => by
    simp only [withUnread_slot, loadBit_withUnread, withUnread_bit]
    split
    · exact emit_withUnread _ (unaware_nextBit 8 hk) s
    · exact readReg_withUnread _ _ fun b => unaware_writeSlot b unaware_nextSlot g d l _

theorem unaware_sendByte (v : Byte) (hk : Unaware k) : Unaware (sendByte v k) := fun g d l s => by
  by_cases h : s.atFrameStart = true
  · rw [sendByte_of_start v h, sendByte_of_start v (s := withUnread g d l s) h]
    exact unaware_byteFrame hk g d l { s with byte := some v }
  · rw [sendByte_of_not_start v h, sendByte_of_not_start v (s := withUnread g d l s) h]
    exact unaware_byteFrame hk g d l s

theorem unaware_endSlot {n : Nat} {a : Target n} (ha : a.Lawful) (hk : Unaware k) :
    Unaware (a.endSlot k) := fun g d l s =>
  readReg_withUnread _ s.bit fun b => by
    have hget : a.get (withUnread g d l s) = a.get s := ha.get_congr _ _ rfl rfl rfl
    simp only [Target.store, hget]
    exact readReg_withUnread _ _ fun acc =>
      unaware_nextBit n hk g d l (a.put (accumulate acc _ b) s)

theorem unaware_frame {n : Nat} {a : Target n} (ha : a.Lawful) (hk : Unaware k) :
    Unaware (a.frame k) := fun g d l s => by
  by_cases h : s.atFrameStart = true
  · rw [frame_of_start a h, frame_of_start a (s := withUnread g d l s) h]
    exact unaware_readSlot (unaware_endSlot ha hk) g d l (a.put 0 s)
  · rw [frame_of_not_start a h, frame_of_not_start a (s := withUnread g d l s) h]
    exact unaware_readSlot (unaware_endSlot ha hk) g d l s

theorem unaware_pollOnce (q : Seq) (hk : Unaware k) : Unaware (pollOnce q k) :=
  unaware_readSlot fun g d l s => readReg_withUnread _ s.bit fun b => by
    split
    · exact hk g d l s
    · rfl

/-! ### The instructions -/

theorem run_withUnread {w : PhaseWork} (hw : w ≠ .decode) (q : Seq) : Unaware (w.run q) :=
  fun g d l s => by
    have hk := unaware_goto q
    cases w with
    | nothing => rfl
    | configure => exact emit_withUnread (.cfg true s.params.pinSpeed) hk s
    | pulse => exact unaware_resetPulse hk g d l s
    | writeBit => exact readReg_withUnread _ s.bit fun b => unaware_writeSlot b hk g d l s
    | readBit => exact unaware_readSlot hk g d l s
    | writeByte => exact unaware_byteFrame hk g d l s
    | send k => exact unaware_sendByte _ hk g d l s
    | poll wait => exact unaware_pollOnce wait hk g d l s
    | delay => exact emit_withUnread (.dlyMs s.params.timing.tConvPoll) hk s
    | readByte => exact unaware_frame byteTarget_lawful hk g d l s
    | acc16 => exact unaware_frame rawTarget_lawful hk g d l s
    | acc64 => exact unaware_frame serialTarget_lawful hk g d l s
    | decode => exact absurd rfl hw

theorem decodes_of_work {q : Seq} : q.work = .decode ↔ q.decodes = true := by
  cases q with
  | x op => cases op <;> simp [Seq.work, Seq.decodes]
  | _ => simp [Seq.work, Seq.decodes]

theorem load_withUnread (i : Instr) (s : State) :
    i.load (withUnread g d l s) = withUnread g d l (i.load s) := by
  cases i <;> rfl

/-- An instruction that interprets nothing does the same whatever the unread fields hold. -/
theorem exec_withUnread {i : Instr} (hq : s.seq.decodes = false) :
    exec i (withUnread g d l s) = mapNext (withUnread g d l) (exec i s) := by
  by_cases hi : s.seq = .idle
  · have hr : i.refusal (withUnread g d l s) = i.refusal s := rfl
    rw [exec_of_idle hi, exec_of_idle (s := withUnread g d l s) hi, hr, load_withUnread]
    cases i.refusal s <;> rfl
  · by_cases hp : s.seq ∈ i.phases
    · have hw : s.seq.work ≠ .decode := fun h => by simp [decodes_of_work.1 h] at hq
      rw [exec_of_mem_phases hp, exec_of_mem_phases (s := withUnread g d l s) hp]
      exact run_withUnread hw _ g d l s
    · rw [exec_of_not_mem_phases hi hp, exec_of_not_mem_phases (s := withUnread g d l s) hi hp]
      rfl

/-- One that interprets `RAW` writes `SIGN` and `TEMP` anew. -/
theorem exec_withUnread_of_decodes {i : Instr} (hq : s.seq.decodes = true) :
    exec i (withUnread g d l s) = mapNext (fun t => { t with host := l }) (exec i s) := by
  have hi : s.seq ≠ .idle := fun h => by simp [h, Seq.decodes] at hq
  by_cases hp : s.seq ∈ i.phases
  · rw [exec_of_mem_phases hp, exec_of_mem_phases (s := withUnread g d l s) hp]
    simp only [State.phaseStep, withUnread_seq, decodes_of_work.2 hq, PhaseWork.run, decodeTempNow,
      withUnread_raw]
    cases s.raw <;> rfl
  · rw [exec_of_not_mem_phases hi hp, exec_of_not_mem_phases (s := withUnread g d l s) hi hp]
    rfl

end

/-! ### The steps -/

/-- What a step is, whatever `SIGN` and `TEMP` hold. -/
inductive SameStep (s : State) : Prop where
  /-- An instruction's, the same one. -/
  | runs (l : List HostMove) (i : Instr)
    (e : ∀ g d, step (withUnread g d s.host s) = exec i (withUnread g d l s))
  /-- A wait. -/
  | waits (l : List HostMove) (hi : s.seq = .idle)
    (e : ∀ g d, step (withUnread g d s.host s) = .next (withUnread g d l s))
  /-- A word that names no instruction. -/
  | rejects (r : Refusal) (e : ∀ g d, step (withUnread g d s.host s) = .refused r)

theorem SameStep.of_carryOn {s : State} {l : List HostMove}
    (ha : ∀ g d, nextAction (withUnread g d s.host s) = carryOn (withUnread g d l s)) :
    SameStep s := by
  cases hc : s.current with
  | some i => exact .runs l i fun g d => step_of_run ((ha g d).trans (carryOn_of_current hc))
  | none =>
    have hw : ∀ g d, carryOn (withUnread g d l s) = .settle (withUnread g d l s) := fun g d => by
      have : (withUnread g d l s).current = none := hc
      rw [carryOn, this]
    exact .waits l ((current_none_iff s).1 hc) fun g d => step_of_settle ((ha g d).trans (hw g d))

theorem SameStep.of_request {s : State} {w : CommandWord} {l : List HostMove}
    (ha : ∀ g d, nextAction (withUnread g d s.host s) = presentRequest w (withUnread g d l s)) :
    SameStep s := by
  cases hd : decode s.params.codes w with
  | ok i =>
    refine .runs l i fun g d => step_of_run ((ha g d).trans ?_)
    rw [presentRequest, withUnread_params, hd]
  | error r =>
    refine .rejects (refusalOf r) fun g d => step_of_reject ((ha g d).trans ?_)
    rw [presentRequest, withUnread_params, hd]

/-- Short of a hardware reset, what a step is does not depend on `SIGN` and `TEMP` (R234). -/
theorem sameStep {s : State} (hr : s.host.head? ≠ some .hardReset) : SameStep s := by
  cases hh : s.host with
  | nil => exact .of_carryOn (l := []) fun g d => by simp [nextAction, withUnread, hh]
  | cons m l =>
    cases m with
    | hardReset => simp [hh] at hr
    | pass => exact .of_carryOn (l := l) fun g d => by simp [nextAction, withUnread, hh]
    | request w =>
      by_cases hi : s.seq = .idle
      · exact .of_request (w := w) (l := l) fun g d => by
          simp [nextAction, withUnread, hh, State.busy, hi]
      · exact .of_carryOn (l := .request w :: l) fun g d => by
          simp [nextAction, withUnread, hh, State.busy, hi]
    | requestNow w =>
      by_cases hi : s.seq = .idle
      · exact .of_request (w := w) (l := l) fun g d => by
          simp [nextAction, withUnread, hh, State.busy, hi]
      · exact .of_carryOn (l := l) fun g d => by
          simp [nextAction, withUnread, hh, State.busy, hi]

/-- Settles O13: the same instruction runs in both, and it is unaware of the two registers or writes
them anew. -/
theorem signAndTempInfluenceNothing : Obligations.SignAndTempInfluenceNothing := by
  intro s t g d hr h
  cases sameStep hr with
  | runs l i e =>
    have hs : exec i { s with host := l } = .next t := (e s.sign s.temp).symm.trans h
    have hhost : t.host = l := (exec_keeps_host_params hs).1
    subst hhost
    cases hq : s.seq.decodes with
    | false =>
      refine ⟨withUnread g d t.host t, (e g d).trans ?_, rfl, fun h8 => ?_, fun _ _ => ⟨rfl, rfl⟩⟩
      · exact (exec_withUnread (s := { s with host := t.host }) hq).trans (congrArg _ hs)
      · simp [(Seq.decodes_iff _).2 h8] at hq
    | true =>
      refine ⟨t, (e g d).trans ?_, rfl, fun _ => ⟨rfl, rfl⟩, fun h8 hx => ?_⟩
      · exact (exec_withUnread_of_decodes (s := { s with host := t.host }) hq).trans (congrArg _ hs)
      · simp [Seq.decodes_iff, h8, hx] at hq
  | waits l hi e =>
    obtain rfl := Host.Outcome.next.inj ((e s.sign s.temp).symm.trans h)
    exact ⟨withUnread g d l s, e g d, rfl, fun h8 => by simp [hi] at h8, fun _ _ => ⟨rfl, rfl⟩⟩
  | rejects r e => cases (e s.sign s.temp).symm.trans h

end Sys2Proof.Machine

/-! ## Proofs: what no step and no instruction writes (R63, R66)

The parameters are written by nothing, the host's moves by no instruction (log 1, log 4). -/

namespace Sys2Proof.Machine

open Sys2Proof

/-- Settles O11: a step is a hardware reset, a wait or an instruction's; none writes a parameter. -/
theorem parametersNeverChange : Obligations.ParametersNeverChange := by
  intro s t h
  cases step_cases s with
  | reset l _ e => cases e.symm.trans h; rfl
  | carriesOn l i _ _ e => exact (exec_keeps_host_params (e.symm.trans h)).2
  | waits l _ _ e => cases e.symm.trans h; rfl
  | starts w l i _ _ _ e => exact (exec_keeps_host_params (e.symm.trans h)).2
  | rejects w l r _ _ _ e => cases e.symm.trans h

/-- An acceptance and the interpretation of `RAW` add nothing to the trace, any other step of an
instruction one event (R12). -/
theorem exec_trace {i : Instr} {s t : State} (h : exec i s = .next t) :
    t.trace = s.trace ∨ ∃ e, t.trace = s.trace ++ [e] := by
  cases exec_next h with
  | starts _ _ h => exact .inl h.trace
  | decodes _ _ _ h => subst h; exact .inl rfl
  | emits _ _ e _ h => exact .inr ⟨e, h.trace⟩

/-- Settles O14: `exec_keeps_host_params`, and the event of `exec_trace`. -/
theorem operationsLeaveHostQueue : Obligations.OperationsLeaveHostQueue := by
  intro i s t h
  obtain ⟨hhost, hparams⟩ := exec_keeps_host_params h
  exact ⟨hhost, hparams, exec_trace h⟩

end Sys2Proof.Machine

/-! ## Proofs: two values in a row (R80, R177)

What a list of bits spells when it is one list after another. -/

namespace Sys2Proof.Machine

open Sys2Proof

theorem lsbValue_append_eq_add (l m : List Bit) :
    lsbValue (l ++ m) = lsbValue l + 2 ^ l.length * lsbValue m := by
  induction l with
  | nil => simp [lsbValue]
  | cons b l ih =>
    simp only [List.cons_append, lsbValue, ih, List.length_cons, Nat.pow_succ]
    ring

/-- The value of the second list goes above that of the first, shifted by the first one's width. -/
theorem ofNat_lsbValue_append {j k n : Nat} (hj : j ≤ n) (hk : k ≤ n) {l m : List Bit}
    (hl : l.length = j) (hm : m.length = k) :
    BitVec.ofNat n (lsbValue (l ++ m)) =
      (BitVec.ofNat j (lsbValue l)).setWidth n |||
        ((BitVec.ofNat k (lsbValue m)).setWidth n <<< j) := by
  have hlt : lsbValue l < 2 ^ j := hl ▸ lsbValue_lt l
  have hor : lsbValue (l ++ m) = lsbValue l ||| 2 ^ j * lsbValue m := by
    rw [lsbValue_append_eq_add, hl, Nat.add_comm, Nat.two_pow_add_eq_or_of_lt hlt, Nat.or_comm]
  have hshift : BitVec.ofNat n (2 ^ j * lsbValue m) = BitVec.ofNat n (lsbValue m) <<< j := by
    apply BitVec.eq_of_toNat_eq
    simp [Nat.shiftLeft_eq, Nat.mul_comm]
  rw [hor, BitVec.ofNat_or, hshift, BitVec.setWidth_ofNat_of_le_of_lt hj hlt,
    BitVec.setWidth_ofNat_of_le_of_lt hk (hm ▸ lsbValue_lt m)]

end Sys2Proof.Machine

/-! ## Proofs: the response frames, asked for (R75, R80, R89)

A request that an idle OWM accepts is one step, and the frame's run follows it (log 4). -/

namespace Sys2Proof.Machine

open Sys2Proof

/-- A busy OWM whose host waits takes the next step of its phase. -/
theorem step_eq_phaseStep {s : State} (hw : s.HostWaits) (hb : s.seq ≠ .idle) :
    step s = s.phaseStep := by
  obtain ⟨i, hi⟩ := Option.ne_none_iff_exists'.1 (mt (current_none_iff s).1 hb)
  rw [step_of_current hw hi, exec_of_mem_phases (mem_phases_of_current hi)]

/-- A word that names an instruction, requested of an idle OWM, runs it with the move taken off. -/
theorem step_of_request {s : State} {w : CommandWord} {l : List HostMove} {i : Instr}
    (hi : s.seq = .idle) (hh : s.host = .request w :: l) (hd : decode s.params.codes w = .ok i) :
    step s = exec i { s with host := l } :=
  step_of_run (by simp [nextAction, hh, State.busy, hi, presentRequest, hd])

theorem State.Bench.idle {s : State} (hs : s.Bench) : s.Idle := hs.2.2

/-- On a `Bench` state nothing is refused but search-ROM and `DECODE_TEMP` (R89). -/
theorem exec_of_bench {i : Instr} {s : State} (hs : s.Bench) (hi : i ≠ .cmdSearchRom)
    (hdec : i ≠ .decodeTemp) : exec i s = .next (atPhase i.entry (i.load s)) := by
  obtain ⟨hx, hc, hidle, -⟩ := hs
  rw [exec_of_idle hidle, show i.refusal s = none by simp [Instr.refusal, hx, hc, hi, hdec]]

/-- The state a response frame leaves: the answers in the accumulator, the last of them in `BIT`. -/
def Target.filled {w : Nat} (g : Target w) (s : State) : State :=
  g.put (BitVec.ofNat w (lsbValue (answers w s))) { s with
    env := (dropSamples w s).env
    draws := (dropSamples w s).draws
    bit := (answers w s).getLast?
    trace := s.trace ++ trRead s.params.timing (answers w s) }

section
variable {s : State} {l : List HostMove}

/-- A response frame from its first event on; OWM is idle after it. -/
theorem Target.lone_runs {w : Nat} {g : Target w} (hg : g.Lawful) (hw1 : 1 < w) {q : Seq}
    (hq : ∀ u : State, u.seq = q → u.HostWaits → step u = g.frame (goto .idle) u)
    (hs : s.Idle) (hw : s.HostWaits) : Runs (8 * w) (atPhase q s) (g.filled s) := by
  obtain ⟨hidle, hb, hz, hdir, hout⟩ := hs
  refine g.frame_runs hg hw1 hq rfl hw rfl rfl hdir hout ?_
  have hans : answers w (atPhase q s) = answers w s := answers_congr (by rfl) (by rfl) w
  obtain ⟨henv, hdraws⟩ := dropSamples_congr (s := atPhase q s) (t := s) rfl rfl w
  rw [dropSamples_eq, hans, henv, hdraws]
  simp [Target.filled, Target.put, goto, atPhase, hidle, hb, hz]

/-- `READ_BYTE` (R125). -/
theorem readByte_runs (hs : s.Idle) (hw : s.HostWaits) :
    Runs 64 (atPhase (.x .readByte) s) (byteTarget.filled s) := by
  refine Target.lone_runs byteTarget_lawful (by decide) (fun u hu hw => ?_) hs hw
  rw [step_eq_phaseStep hw (hu ▸ nofun), State.phaseStep, hu]
  exact readByteFrame_eq _ u

/-- `ACC16` (R165). -/
theorem acc16_runs (hs : s.Idle) (hw : s.HostWaits) :
    Runs 128 (atPhase (.x .acc16) s) (rawTarget.filled s) := by
  refine Target.lone_runs rawTarget_lawful (by decide) (fun u hu hw => ?_) hs hw
  rw [step_eq_phaseStep hw (hu ▸ nofun), State.phaseStep, hu]
  exact acc16Frame_eq _ u

/-- A run of an instruction, its request on a `Bench` state put before it. -/
theorem requested_runs {i : Instr} {n : Nat} {t : State} {w : CommandWord} (hs : s.Bench)
    (hh : s.host = .request w :: l) (hd : decode s.params.codes w = .ok i)
    (hi : i ≠ .cmdSearchRom) (hdec : i ≠ .decodeTemp)
    (r : Runs n (atPhase i.entry (i.load { s with host := l })) t) : Runs (1 + n) s t := by
  have haccept := exec_of_bench (s := { s with host := l }) hs hi hdec
  obtain ⟨-, -, hidle, -⟩ := hs
  exact (Runs.one ((step_of_request hidle hh hd).trans haccept)).trans r

theorem readByte_requested_runs (hs : s.Bench) (hh : s.host = .request (.cw 0x400) :: l)
    (hw : ({ s with host := l } : State).HostWaits) :
    Runs (1 + 64) s (byteTarget.filled { s with host := l }) :=
  requested_runs (i := .readByte) hs hh rfl nofun nofun (readByte_runs hs.idle hw)

theorem acc16_requested_runs (hs : s.Bench) (hh : s.host = .request (.cw 0x700) :: l)
    (hw : ({ s with host := l } : State).HostWaits) :
    Runs (1 + 128) s (rawTarget.filled { s with host := l }) :=
  requested_runs (i := .acc16) hs hh rfl nofun nofun (acc16_runs hs.idle hw)

end

/-- A frame leaves OWM as ready for another as it found it. -/
theorem Target.filled_bench {w : Nat} (g : Target w) {s : State} (hs : s.Bench) :
    (g.filled s).Bench := hs

/-! ### One frame after another (R128) -/

theorem trRead_append (p : Timing) (l m : List Bit) :
    trRead p (l ++ m) = trRead p l ++ trRead p m :=
  List.flatMap_append

section
variable {s t : State} {m : Nat} (henv : t.env = (dropSamples m s).env)
  (hdraws : t.draws = (dropSamples m s).draws)
include henv hdraws

/-- `t` has the environment that `s` has after `m` answers. -/
theorem answers_add_of_drop (n : Nat) : answers (m + n) s = answers m s ++ answers n t := by
  rw [answers_add, answers_congr henv hdraws]

theorem dropSamples_add_of_drop (n : Nat) :
    (dropSamples (m + n) s).env = (dropSamples n t).env ∧
      (dropSamples (m + n) s).draws = (dropSamples n t).draws := by
  rw [dropSamples_add]
  exact dropSamples_congr henv.symm hdraws.symm n

end

/-- Settles O46: sixteen answers are eight and then the next eight, in the trace, in `BIT` and in
the value, and the second frame is asked for where the first has ended. -/
theorem acc16IsTwoReadBytes : Obligations.Acc16IsTwoReadBytes := by
  intro s hs
  let one : State := { s with host := [] }
  let first : State := { s with host := [.request (.cw 0x400)] }
  let v := byteTarget.filled first
  let second : State := { v with host := [] }
  have hv : v.Bench := byteTarget.filled_bench hs
  have hfirst : answers 8 one = answers 8 first := answers_congr rfl rfl 8
  obtain ⟨henv, hdraws⟩ := dropSamples_congr (s := first) (t := one) rfl rfl 8
  have hans : answers 16 one = answers 8 first ++ answers 8 second :=
    (answers_add_of_drop (t := second) henv hdraws 8).trans (congrArg (· ++ _) hfirst)
  obtain ⟨henv, hdraws⟩ := dropSamples_add_of_drop (t := second) henv hdraws 8
  have hne : answers 8 second ≠ [] := List.ne_nil_of_length_pos (by simp [answers_length])
  refine ⟨rawTarget.filled one, v, byteTarget.filled second, _, _,
    acc16_requested_runs hs rfl (.inl rfl), readByte_requested_runs hs rfl (.inr ⟨_, rfl⟩),
    readByte_requested_runs hv rfl (.inl rfl), rfl, rfl, ?raw, ?trace, henv, hdraws, ?bit⟩
  case raw =>
    have hlen := answers_length 8
    exact congrArg some (hans ▸ ofNat_lsbValue_append (by decide) (by decide) (hlen _) (hlen _))
  case trace =>
    show s.trace ++ trRead s.params.timing (answers 16 one) =
      s.trace ++ trRead s.params.timing (answers 8 first)
        ++ trRead s.params.timing (answers 8 second)
    rw [hans, trRead_append, List.append_assoc]
  case bit =>
    show (answers 16 one).getLast? = (answers 8 second).getLast?
    rw [hans, List.getLast?_append_of_ne_nil _ hne]

end Sys2Proof.Machine

/-! ## Proofs: words (R76, R85 to R87, R90)

A host word is decoded by its operation code, and its operand is looked at for the codes of
`WRITE_BIT` and `WRITE_BYTE` alone. -/

namespace Sys2Proof

theorem decodeHost_writeBit {w : HostWord} (h : HostWord.op w = 1) :
    decodeHost w = .ok (.writeBit ((HostWord.arg w).getLsbD 0)) := by
  simp [decodeHost, h]

theorem decodeHost_writeByte {w : HostWord} (h : HostWord.op w = 3) :
    decodeHost w = .ok (.writeByte (HostWord.arg w)) := by
  simp [decodeHost, h]

/-- A reserved code names no operation (R90). -/
theorem decodeHost_reserved {w : HostWord} (h : 12 ≤ (HostWord.op w).toNat) :
    decodeHost w = .error (.reservedCode (HostWord.op w)) := by
  unfold decodeHost
  split
  case h_13 => rfl
  all_goals omega

/-- Every operation but two is named by its code alone (R87). -/
theorem decodeHost_eq_of_op_eq {w w' : HostWord} (h : HostWord.op w = HostWord.op w')
    (h1 : HostWord.op w ≠ 1) (h3 : HostWord.op w ≠ 3) : decodeHost w = decodeHost w' := by
  have h1 : (HostWord.op w).toNat ≠ 1 := fun e => h1 (BitVec.eq_of_toNat_eq e)
  have h3 : (HostWord.op w).toNat ≠ 3 := fun e => h3 (BitVec.eq_of_toNat_eq e)
  unfold decodeHost
  rw [← h]
  split
  case h_2 hop => exact absurd hop h1
  case h_4 hop => exact absurd hop h3
  all_goals rfl

/-- Settles O22: the code of `op ++ a` is `op`, and its operand is `a`. -/
theorem argReadOnlyByWrites : Obligations.ArgReadOnlyByWrites := by
  intro op a b
  refine ⟨fun h1 h3 => ?_, ?_, ?_⟩
  · have h := hostWord_op op
    exact decodeHost_eq_of_op_eq ((h a).trans (h b).symm) (by rwa [h a]) (by rwa [h a])
  · rw [decodeHost_writeBit (hostWord_op 1 a), hostWord_arg]
  · rw [decodeHost_writeByte (hostWord_op 3 a), hostWord_arg]

/-- A command code is well formed when it names its command only; it is then read as that (R10). -/
theorem decode_encode_command {c : CommandCodes} {i : Instr} {k : Command}
    (hi : i.command? = some k) (h : i.WellFormed c) :
    decode c (.code (c.code k)) = .ok (Instr.ofCommand k) :=
  decodeWire_code (h k hi)

/-- Settles O21: a host word by its code and its operand, and a command code by being the only one of
its value. -/
theorem decodeOfEncode : Obligations.DecodeOfEncode := by
  intro c i h
  cases i with
  | writeBit b =>
    refine (decodeHost_writeBit (hostWord_op 1 _)).trans ?_
    rw [hostWord_arg]
    cases b <;> rfl
  | writeByte v =>
    refine (decodeHost_writeByte (hostWord_op 3 v)).trans ?_
    rw [hostWord_arg]
  | cmdSkipRom | cmdSearchRom | cmdReadRom | cmdConvertT | cmdReadScratchpad =>
    exact decode_encode_command rfl h
  | _ => rfl

/-- Settles O20: each word is one that `decodeHost` and `decodeWire` evaluate. -/
theorem specWordsDecode : Obligations.SpecWordsDecode :=
  ⟨rfl, rfl, rfl, rfl, rfl, rfl, rfl, rfl, rfl⟩

end Sys2Proof

/-! ## Proofs: requests presented while idle (R88 to R90, R148)

A request presented while idle is the step of the instruction its word names, or is refused because
the word names none; and an instruction refuses it for the reasons of `Instr.refusal`, in their order. -/

namespace Sys2Proof.Machine

open Sys2Proof

theorem nextAction_of_asked {s : State} {w : CommandWord} {l : List HostMove} (hi : s.seq = .idle)
    (hh : s.host = .request w :: l ∨ s.host = .requestNow w :: l) :
    nextAction s = presentRequest w { s with host := l } := by
  obtain hh | hh := hh <;> simp [nextAction, hh, State.busy, hi]

/-- Settles O7: the request is presented, and its word names `i`. -/
theorem stepRunsRequestedInstruction : Obligations.StepRunsRequestedInstruction := by
  intro s w l i hi hh hd
  exact step_of_run ((nextAction_of_asked hi hh).trans (by simp [presentRequest, hd]))

/-- Settles O19: the request is presented, and its word names nothing (`decodeHost_reserved`). -/
theorem reservedCodeRefused : Obligations.ReservedCodeRefused := by
  intro s op arg l hi hop hh
  have hd : decodeHost (op ++ arg) = .error (.reservedCode op) := by
    rw [decodeHost_reserved (by rwa [hostWord_op]), hostWord_op]
  exact step_of_reject
    ((nextAction_of_asked hi hh).trans (by simp [presentRequest, decode, hd, refusalOf]))

/-! ### What an idle OWM answers -/

theorem exec_refused {i : Instr} {s : State} {r : Refusal} (hi : s.seq = .idle)
    (h : i.refusal s = some r) : exec i s = .refused r := by
  rw [exec_of_idle hi, h]

theorem exec_accepted {i : Instr} {s : State} (hi : s.seq = .idle) (h : i.refusal s = none) :
    exec i s = .next (atPhase i.entry (i.load s)) := by
  rw [exec_of_idle hi, h]

theorem ne_init_of_internal {i : Instr} (h : i.isPublic = false) : i ≠ .init := by
  rintro rfl
  cases h

/-- R89's switch comes first. -/
theorem refusal_of_not_exposed {i : Instr} {s : State} (h : i.isPublic = false)
    (hx : s.params.exposeInternalOps = false) : i.refusal s = some .notExposed := by
  simp [Instr.refusal, ne_init_of_internal h, h, hx]

/-- With the switch on and the pin configured, two reasons are left (R89, R148). -/
theorem refusal_of_exposed {i : Instr} {s : State}
    (hx : s.params.exposeInternalOps = true) (hc : s.configured = true) :
    i.refusal s = if i = .cmdSearchRom then some .neverSent
      else if i = .decodeTemp ∧ s.raw = none then some .rawHoldsNoValue else none := by
  by_cases h : i = .init
  · simp [Instr.refusal, h]
  · simp [Instr.refusal, h, hx, hc]

/-- Every operation that can be accepted has a first phase. -/
theorem entry_ne_idle {i : Instr} (h : i ≠ .cmdSearchRom) : i.entry ≠ .idle := by
  cases i with
  | cmdSearchRom => exact absurd rfl h
  | _ => exact nofun

/-- Settles O18: the four answers are those of `Instr.refusal`, and the acceptance is busy because the
operation has a first phase. -/
theorem internalOperationsGated : Obligations.InternalOperationsGated := by
  intro s i hi hint
  refine ⟨fun hx => exec_refused hi (refusal_of_not_exposed hint hx), fun hx hc => ?_⟩
  have hr := refusal_of_exposed (i := i) hx hc
  refine ⟨?_, ?_, fun hsearch hraw => ?_⟩
  · rintro ⟨rfl, hraw⟩
    exact exec_refused hi (by simp [hr, hraw])
  · rintro rfl
    exact exec_refused hi (by simp [hr])
  · have hraw : ¬(i = .decodeTemp ∧ s.raw = none) := by tauto
    refine ⟨_, exec_accepted hi (by rw [hr, if_neg hsearch, if_neg hraw]), ?_⟩
    simp [State.busy, entry_ne_idle hsearch]

/-! ### What the host reads -/

/-- Settles O50: both results are guarded by `BUSY`, and the sign by nothing (R145, R237). -/
theorem resultsReadOnlyWhenIdle : Obligations.ResultsReadOnlyWhenIdle := by
  intro s
  refine ⟨rfl, fun hb => ⟨if_pos hb, if_pos hb⟩, fun hb => ?_⟩
  have hb : ¬s.busy = true := by simp [hb]
  exact ⟨if_neg hb, if_neg hb⟩

end Sys2Proof.Machine

/-! ## Proofs: the byte on its way (R54, R83, R120)

From the first event of a byte frame on, `BYTE` holds the phase's code and `BIT` the bit of the slot:
so it is before a step by the invariant, or the step loads them, and the step leaves them. -/

namespace Sys2Proof.Machine

open Sys2Proof

/-- search-ROM, asked for where an internal operation is accepted (R148). -/
theorem execCmdSearchRom_neverSent {s : State} (hs : s.Bench) :
    exec .cmdSearchRom s = .refused .neverSent := by
  obtain ⟨hx, hc, hi, -⟩ := hs
  exact exec_refused hi (refusal_of_exposed hx hc)

section
variable {s t : State} {v : Byte} {k : State → Result} {c : SentCommand} {q : Seq}

/-- Loading the bit of the slot first makes no difference: the frame loads it, or it is there. -/
theorem Sending.byteFrame_eq (h : Sending v s) :
    byteFrame k s = byteFrame k { s with bit := some (bitOfByte v s.bitcnt) } := by
  by_cases hz : s.slot = 0
  · simp only [byteFrame, h.byte, readReg, loadBit, hz, if_true]
  · rw [← h.bit (by omega)]

/-- An event of a byte frame leaves the registers that are loaded (R47). -/
theorem Sending.keeps_loaded (h : Sending v s) (hbit : s.bit = some (bitOfByte v s.bitcnt))
    (ht : byteFrame (goto q) s = .next t) : KeepsBut [] s t := by
  have hload : loadBit v s = s := by rw [h.loadBit_eq, ← hbit]
  obtain ⟨v', e, hv, -, -, rfl | ht⟩ := byteFrame_next ht
  · cases h.byte.symm.trans hv
    rw [hload]
    exact keeps_advance [] e s
  · exact (keeps_recordEvent [] e s).trans (keepsThen_nextBit 8 (keepsThen_goto q) _ _ _ ht)

theorem Sending.byteFrame_bit_byte (h : Sending v s) (ht : byteFrame (goto q) s = .next t) :
    t.byte = some v ∧ t.bit = some (bitOfByte v s.bitcnt) := by
  rw [h.byteFrame_eq] at ht
  have h' : Sending v { s with bit := some (bitOfByte v s.bitcnt) } :=
    ⟨h.configured, h.bitcnt, h.slot, h.pin, h.byte, fun _ => rfl⟩
  have hk := h'.keeps_loaded rfl ht
  exact ⟨(hk.byte nofun).trans h.byte, hk.bit nofun⟩

/-- The frame of a command, its code loaded (R120). -/
theorem InWork.sending_of_send (h : InWork (.send c) s) :
    Sending (s.params.codes.code c.toCommand)
      { s with byte := some (s.params.codes.code c.toCommand) } := by
  obtain ⟨hc, hb, hk, hp, hbyte, hbit⟩ := h
  refine ⟨hc, hb, hk, hp, rfl, fun (h1 : 1 ≤ s.slot) => ?_⟩
  have hz : s.atFrameStart = false := by simp [State.atFrameStart]; omega
  simpa [hbyte hz] using hbit h1

/-- Loading the code first makes no difference: the frame loads it, or it is there. -/
theorem InWork.sendByte_eq (h : InWork (.send c) s) :
    sendByte (s.params.codes.code c.toCommand) k s =
      byteFrame k { s with byte := some (s.params.codes.code c.toCommand) } := by
  by_cases hz : s.atFrameStart = true
  · exact sendByte_of_start _ hz
  · rw [sendByte_of_not_start _ hz, ← h.regs.1 (by simpa using hz)]

/-- A phase that sends a command has its code in `BYTE` and the bit of the slot in `BIT`. -/
theorem Inv.phaseStep_byte_bit (h : Inv s) (hc : s.seq.sends = some c) (ht : s.phaseStep = .next t) :
    t.byte = some (s.params.codes.code c.toCommand) ∧
      t.bit = some (bitOfByte (s.params.codes.code c.toCommand) s.bitcnt) := by
  have hwork := work_of_sends hc
  have hconf : s.configured = true := by
    refine h.configured.resolve_right ?_
    rintro (hs | hs) <;> rw [hs] at hc <;> cases hc
  have hin : InWork (.send c) s := hwork ▸ h.inWork hconf
  rw [State.phaseStep, hwork, PhaseWork.run, hin.sendByte_eq] at ht
  exact hin.sending_of_send.byteFrame_bit_byte ht

end

/-- A byte frame that is not a lone `WRITE_BYTE` sends a command code. -/
theorem sends_of_isByteFrame {q : Seq} (h : q.isByteFrame = true) (hq : q ≠ .x .writeByte) :
    ∃ c, q.sends = some c := by
  simpa [Seq.isByteFrame, hq, Option.isSome_iff_exists] using h

/-- Settles O52: the phase sends one of the four codes, and none of them is search-ROM's. -/
theorem searchRomIsNeverSent : Obligations.SearchRomIsNeverSent := by
  intro s
  refine ⟨execCmdSearchRom_refused s, execCmdSearchRom_neverSent, fun h hw hr hbf hwb => ?_⟩
  obtain ⟨c, hc⟩ := sends_of_isByteFrame hbf hwb
  have hidle : s.seq ≠ .idle := fun hi => by rw [hi] at hc; cases hc
  obtain ⟨t, ht⟩ := (nothingStopsAnOperation s h).2.1 (by simp [State.busy, hidle])
  obtain ⟨l, ⟨i, hx⟩ | ⟨hi, -⟩⟩ := step_next hr ht
  · obtain ⟨hi, -, -⟩ | ⟨-, hphase⟩ := exec_next_cases hx
    · exact absurd hi hidle
    · obtain ⟨hbyte, hbit⟩ :=
        Inv.phaseStep_byte_bit (s := { s with host := l }) (h.withHost l) hc hphase
      exact ⟨t, c, _, ht, hc, rfl, sentCode_ne_searchRom hw c, hbyte, hbit⟩
  · exact absurd hi hidle

end Sys2Proof.Machine

/-! ## Proofs: the phases, from the first event to the last (R32, R70 to R75)

What a phase does from its first position is the run of its work, whatever operation it belongs to;
OWM is then at the phase after it, and otherwise as the work left it. -/

namespace Sys2Proof.Machine

open Sys2Proof

/-- What the reset pulse leaves: its four events (R136). -/
def pulsed (s : State) : State := { s with trace := s.trace ++ trReset s.params.timing }

/-- What a byte frame leaves: the byte in `BYTE`, the last bit sent in `BIT` (R120). -/
def sent (v : Byte) (s : State) : State :=
  { s with
    byte := some v, bit := some (v.getLsbD 7)
    trace := s.trace ++ trWriteByte s.params.timing v }

/-- What the conversion wait leaves that reads `k` zeros and then a one (R138). -/
def waited (k : Nat) (s : State) : State :=
  { s with
    env := (dropSamples (k + 1) s).env
    draws := (dropSamples (k + 1) s).draws
    bit := some true
    trace := s.trace ++ trWait s.params.timing k }

/-- What the interpretation of `raw` leaves (R168). -/
def interpreted (raw : Half) (s : State) : State :=
  { s with sign := signOfRaw raw, temp := some (tempOfRaw raw) }

/-- In an idle OWM the position is that of a phase not begun (R31). -/
theorem atPhase_of_idle {s : State} (hs : s.Idle) (q : Seq) : atPhase q s = { s with seq := q } := by
  obtain ⟨-, hb, hz, -⟩ := hs
  simp [atPhase, hb, hz]

theorem atPhase_idle_of_idle {s : State} (hs : s.Idle) : atPhase .idle s = s := by
  rw [atPhase_of_idle hs, ← hs.1]

/-- A step in a phase is the next of its work. -/
theorem step_eq_run {q : Seq} {w : PhaseWork} (hq : q.work = w) (hn : w ≠ .nothing) {u : State}
    (hu : u.seq = q) (hw : u.HostWaits) : step u = w.run q.after u := by
  have hb : u.seq ≠ .idle := fun hi => hn (by rw [← hq, ← hu, hi]; rfl)
  rw [step_eq_phaseStep hw hb, State.phaseStep, hu, hq]

section
variable {s : State} {q : Seq} (hs : s.Idle) (hw : s.HostWaits)
include hs hw

theorem pulse_runs (hq : q.work = .pulse) : Runs 4 (atPhase q s) (atPhase q.after (pulsed s)) := by
  obtain ⟨-, -, -, hd, hp⟩ := hs
  exact resetPulse_runs (fun u hu hw => step_eq_run hq nofun hu hw) rfl hw rfl hd hp rfl

theorem writeByte_runs {v : Byte} (hq : q.work = .writeByte) (hv : s.byte = some v) :
    Runs 40 (atPhase q s) (atPhase q.after (sent v s)) := by
  obtain ⟨-, -, -, hd, hp⟩ := hs
  refine byteFrame_runs (fun u hu hw _ _ => step_eq_run hq nofun hu hw) rfl hv hw rfl rfl hd hp ?_
  simp [goto, atPhase, sent, hv]

theorem send_runs {c : SentCommand} (hq : q.work = .send c) :
    Runs 40 (atPhase q s) (atPhase q.after (sent (s.params.codes.code c.toCommand) s)) := by
  obtain ⟨-, -, -, hd, hp⟩ := hs
  refine sendByte_runs (q := q) (done := goto q.after) (fun u hu hw hup => ?_)
    rfl hw rfl rfl hd hp rfl
  rw [step_eq_run hq nofun hu hw, PhaseWork.run, hup]
  rfl

theorem wait_runs {qd : Seq} {k : Nat} (hq : q.work = .poll qd) (hqd : qd.work = .delay)
    (hback : qd.after = q) (ha : answers (k + 1) s = List.replicate k false ++ [true]) :
    Runs (9 * k + 8) (atPhase q s) (atPhase q.after (waited k s)) := by
  obtain ⟨-, -, -, hd, hp⟩ := hs
  refine poll_runs (s := atPhase q s) (fun u hu hw => step_eq_run hq nofun hu hw)
    (fun u hu hw => ?_) rfl hw rfl rfl hd hp k (answers_of ha rfl rfl) ?_
  · rw [step_eq_run hqd nofun hu hw, hback]
    rfl
  · obtain ⟨henv, hdraws⟩ := dropSamples_congr (s := atPhase q s) (t := s) rfl rfl (k + 1)
    rw [dropSamples_eq, henv, hdraws]
    rfl

/-- A response frame in a phase of any operation. -/
theorem Target.phase_runs {w : Nat} {g : Target w} (hg : g.Lawful) (hw1 : 1 < w) {q' : Seq}
    (hq : ∀ u : State, u.seq = q → u.HostWaits → step u = g.frame (goto q') u) :
    Runs (8 * w) (atPhase q s) (atPhase q' (g.filled s)) := by
  obtain ⟨-, -, -, hd, hp⟩ := hs
  refine g.frame_runs hg hw1 hq rfl hw rfl rfl hd hp ?_
  have hans : answers w (atPhase q s) = answers w s := answers_congr (by rfl) (by rfl) w
  obtain ⟨henv, hdraws⟩ := dropSamples_congr (s := atPhase q s) (t := s) rfl rfl w
  rw [dropSamples_eq, hans, henv, hdraws]
  rfl

theorem acc16_phase_runs (hq : q.work = .acc16) :
    Runs 128 (atPhase q s) (atPhase q.after (rawTarget.filled s)) :=
  Target.phase_runs hs hw rawTarget_lawful (by decide) fun u hu hw =>
    (step_eq_run hq nofun hu hw).trans (acc16Frame_eq _ u)

theorem acc64_phase_runs (hq : q.work = .acc64) :
    Runs 512 (atPhase q s) (atPhase q.after (serialTarget.filled s)) :=
  Target.phase_runs hs hw serialTarget_lawful (by decide) fun u hu hw =>
    (step_eq_run hq nofun hu hw).trans (acc64Frame_eq _ u)

omit hs in
theorem decode_runs {raw : Half} (hq : q.work = .decode) (hraw : s.raw = some raw) :
    Runs 1 (atPhase q s) (atPhase q.after (interpreted raw s)) := by
  refine Runs.one ((step_eq_run (u := atPhase q s) hq nofun rfl hw).trans ?_)
  show readReg .raw s.raw _ = _
  rw [hraw]
  rfl

end

/-! ### The host's moves are not in what a phase leaves -/

theorem waited_withHost (k : Nat) (s : State) (l : List HostMove) :
    waited k { s with host := l } = { waited k s with host := l } := by
  obtain ⟨henv, hdraws⟩ := dropSamples_congr (s := { s with host := l }) (t := s) rfl rfl (k + 1)
  simp only [waited, henv, hdraws]

theorem Target.filled_withHost {w : Nat} (g : Target w) (s : State) (l : List HostMove) :
    g.filled { s with host := l } = { g.filled s with host := l } := by
  have hans : answers w { s with host := l } = answers w s := answers_congr (by rfl) (by rfl) w
  obtain ⟨henv, hdraws⟩ := dropSamples_congr (s := { s with host := l }) (t := s) rfl rfl w
  simp only [Target.filled, hans, henv, hdraws, Target.put]

/-! ### The command codes, run alone (R76, R84) -/

theorem eq_ofCommand {i : Instr} {k : Command} (h : i.command? = some k) : i = Instr.ofCommand k := by
  cases i <;> cases h <;> rfl

theorem exec_command_of_bench (c : SentCommand) {s : State} (hs : s.Bench) :
    exec (Instr.ofCommand c.toCommand) s = .next (atPhase (.x (.command c)) s) := by
  cases c <;> exact exec_of_bench hs nofun nofun

/-- Settles O37: the phase of the code is `send_runs`, and OWM is idle after it. -/
theorem commandCodesSentAsByteFrames : Obligations.CommandCodesSentAsByteFrames := by
  intro s i c hi hs hw
  rw [eq_ofCommand hi, exec_command_of_bench c hs, ← atPhase_of_idle hs.idle]
  refine ⟨rfl, (send_runs hs.idle hw rfl).end_eq ?_⟩
  exact atPhase_idle_of_idle (s := sent _ s) hs.idle

end Sys2Proof.Machine

/-! ## Proofs: an operation is its expansion (R92, P4)

A phase of a public operation and the internal operation asked for alone do the same work (`Stage`),
and OWM is as ready after it as before. So the phases of the one and the requests for the others, taken in
order, lead to the same state (`Expands`). -/

namespace Sys2Proof.Machine

open Sys2Proof

/-- `i`, asked for alone, does from `s` what the phase `q` does: `n` steps lead to `t`, whatever
requests wait. -/
structure Stage (i : Instr) (q : Seq) (n : Nat) (s t : State) : Prop where
  hostWord : i.command? = none
  accepted : i.refusal s = none
  bench : t.Bench
  params : t.params = s.params
  phase : ∀ l, ({ s with host := l } : State).HostWaits →
    Runs n (atPhase q { s with host := l }) (atPhase q.after { t with host := l })
  alone : ∀ l, ({ s with host := l } : State).HostWaits →
    Runs n (atPhase i.entry (i.load { s with host := l })) (atPhase .idle { t with host := l })

/-- The phases from `q` on are those of the operations `is`, one after the other. -/
inductive Expands : Seq → List Instr → Nat → State → State → Prop
  | nil (s : State) : Expands .idle [] 0 s s
  | cons {i : Instr} {q : Seq} {is : List Instr} {m n : Nat} {s t u : State}
    (first : Stage i q m s t) (rest : Expands q.after is n t u) : Expands q (i :: is) (m + n) s u

/-- Requests for `is` wait for each other. -/
def requests (c : CommandCodes) (is : List Instr) : List HostMove :=
  is.map fun i => .request (encode c i)

theorem requests_wait (c : CommandCodes) (is : List Instr) (s : State) :
    ({ s with host := requests c is } : State).HostWaits := by
  cases is with
  | nil => exact .inl rfl
  | cons i is => exact .inr ⟨_, rfl⟩

theorem Expands.bench {q : Seq} {is : List Instr} {n : Nat} {s t : State} (h : Expands q is n s t)
    (hs : s.Bench) : t.Bench := by
  induction h with
  | nil s => exact hs
  | cons first _ ih => exact ih first.bench

/-- The phases, one after the other. -/
theorem Expands.phases_run {q : Seq} {is : List Instr} {n : Nat} {s t : State}
    (h : Expands q is n s t) :
    Runs n (atPhase q { s with host := [] }) (atPhase .idle { t with host := [] }) := by
  induction h with
  | nil s => exact Runs.zero _
  | cons first _ ih => exact (first.phase [] (.inl rfl)).trans ih

/-- A request that is accepted, and the run of its operation. -/
theorem accepted_request_runs {i : Instr} {n : Nat} {s t : State} {l : List HostMove} (hs : s.Idle)
    (hw : i.command? = none) (hi : i.refusal s = none)
    (r : Runs n (atPhase i.entry (i.load { s with host := l })) t) :
    Runs (1 + n) { s with host := .request (encode s.params.codes i) :: l } t := by
  have hd : decode s.params.codes (encode s.params.codes i) = .ok i :=
    decodeOfEncode _ i (by simp [Instr.WellFormed, hw])
  have haccept := exec_accepted (i := i) (s := { s with host := l }) hs.1 hi
  have hask := step_of_request (s := { s with host := _ :: l }) hs.1 rfl hd
  exact (Runs.one (hask.trans haccept)).trans r

/-- The requests, one after the other; each takes a step more than its phase (log 4). -/
theorem Expands.requests_run {q : Seq} {is : List Instr} {n : Nat} {s t : State}
    (h : Expands q is n s t) (hs : s.Bench) :
    Runs (is.length + n) { s with host := requests s.params.codes is } { t with host := [] } := by
  induction h with
  | nil s => exact Runs.zero _
  | @cons i q is m n s t u first _ ih =>
    have hrun := first.alone (requests s.params.codes is) (requests_wait _ _ _)
    rw [atPhase_idle_of_idle (s := { t with host := requests s.params.codes is }) first.bench.idle]
      at hrun
    have hfirst := accepted_request_runs hs.idle first.hostWord first.accepted hrun
    have hcodes : t.params.codes = s.params.codes := congrArg Params.codes first.params
    have hrest := ih first.bench
    rw [hcodes] at hrest
    exact (hfirst.trans hrest).length_eq (by rw [List.length_cons]; omega)

/-- The request for an operation and the requests for its expansion lead to the same state. -/
theorem Expands.same_end {i : Instr} {is : List Instr} {n : Nat} {s t : State}
    (h : Expands i.entry is n s t) (hs : s.Bench) (hw : i.command? = none)
    (hi : i.refusal s = none) (hl : i.load { s with host := [] } = { s with host := [] }) :
    ∃ u, Runs (1 + n) { s with host := requests s.params.codes [i] } u ∧
      Runs (is.length + n) { s with host := requests s.params.codes is } u := by
  have hphases := h.phases_run
  rw [atPhase_idle_of_idle (s := { t with host := [] }) (h.bench hs).idle, ← hl] at hphases
  exact ⟨_, accepted_request_runs hs.idle hw hi hphases, h.requests_run hs⟩

/-! ### The stages of the two expansions (R141, R146) -/

/-- On a `Bench` state only search-ROM, and `DECODE_TEMP` for want of `RAW`, are refused (R89). -/
theorem refusal_of_bench {i : Instr} {s : State} (hs : s.Bench) (hi : i ≠ .cmdSearchRom)
    (hraw : i = .decodeTemp → s.raw ≠ none) : i.refusal s = none := by
  obtain ⟨hx, hc, -⟩ := hs
  rw [refusal_of_exposed hx hc, if_neg hi, if_neg fun h => hraw h.1 h.2]

section
variable {s : State} {q : Seq} (hs : s.Bench)
include hs

theorem stage_reset (hq : q.work = .pulse) : Stage .reset q 4 s (pulsed s) where
  hostWord := rfl
  accepted := refusal_of_bench hs nofun nofun
  bench := hs
  params := rfl
  phase _ hw := pulse_runs hs.idle hw hq
  alone _ hw := pulse_runs (q := .x .reset) hs.idle hw rfl

/-- A command code is sent in its phase as `WRITE_BYTE` sends it (R76, R84). -/
theorem stage_send {c : SentCommand} (hq : q.work = .send c) :
    Stage (.writeByte (s.params.codes.code c.toCommand)) q 40 s
      (sent (s.params.codes.code c.toCommand) s) where
  hostWord := rfl
  accepted := refusal_of_bench hs nofun nofun
  bench := hs
  params := rfl
  phase l hw := send_runs (s := { s with host := l }) hs.idle hw hq
  alone l hw := writeByte_runs (q := .x .writeByte)
    (s := { s with byte := some (s.params.codes.code c.toCommand), host := l }) hs.idle hw rfl rfl

theorem stage_wait {qd : Seq} {k : Nat} (hq : q.work = .poll qd) (hqd : qd.work = .delay)
    (hback : qd.after = q) (ha : answers (k + 1) s = List.replicate k false ++ [true]) :
    Stage .waitConv q (9 * k + 8) s (waited k s) where
  hostWord := rfl
  accepted := refusal_of_bench hs nofun nofun
  bench := hs
  params := rfl
  phase l hw := waited_withHost k s l ▸
    wait_runs (s := { s with host := l }) hs.idle hw hq hqd hback (answers_of ha (by rfl) (by rfl))
  alone l hw := waited_withHost k s l ▸
    wait_runs (s := { s with host := l }) (q := .x .waitConv) hs.idle hw rfl rfl rfl
      (answers_of ha (by rfl) (by rfl))

theorem stage_acc16 (hq : q.work = .acc16) : Stage .acc16 q 128 s (rawTarget.filled s) where
  hostWord := rfl
  accepted := refusal_of_bench hs nofun nofun
  bench := hs
  params := rfl
  phase l hw := rawTarget.filled_withHost s l ▸ acc16_phase_runs hs.idle hw hq
  alone l hw := rawTarget.filled_withHost s l ▸ acc16_phase_runs (q := .x .acc16) hs.idle hw rfl

theorem stage_acc64 (hq : q.work = .acc64) : Stage .acc64 q 512 s (serialTarget.filled s) where
  hostWord := rfl
  accepted := refusal_of_bench hs nofun nofun
  bench := hs
  params := rfl
  phase l hw := serialTarget.filled_withHost s l ▸ acc64_phase_runs hs.idle hw hq
  alone l hw := serialTarget.filled_withHost s l ▸ acc64_phase_runs (q := .x .acc64) hs.idle hw rfl

theorem stage_decodeTemp {raw : Half} (hq : q.work = .decode) (hraw : s.raw = some raw) :
    Stage .decodeTemp q 1 s (interpreted raw s) where
  hostWord := rfl
  accepted := refusal_of_bench hs nofun fun _ => by simp [hraw]
  bench := hs
  params := rfl
  phase _ hw := decode_runs hw hq hraw
  alone _ hw := decode_runs (q := .x .decodeTemp) hw rfl hraw

/-- `GET_SERIAL_NUMBER` (R146). -/
theorem expands_getSerialNumber :
    ∃ t, Expands .s0 [.reset, .writeByte s.params.codes.readRom, .acc64] 556 s t :=
  have pulse := stage_reset (q := .s0) hs rfl
  have code := stage_send (q := .s1) (c := .readRom) pulse.bench rfl
  have serial := stage_acc64 (q := .s2) code.bench rfl
  ⟨_, .cons pulse <| .cons code <| .cons serial <| .nil _⟩

/-- `GET_TEMPERATURE` (R141). -/
theorem expands_getTemperature {k : Nat}
    (ha : answers (k + 1) s = List.replicate k false ++ [true]) :
    ∃ t, Expands .t0 [.reset, .writeByte s.params.codes.skipRom, .writeByte s.params.codes.convertT,
      .waitConv, .reset, .writeByte s.params.codes.skipRom,
      .writeByte s.params.codes.readScratchpad, .acc16, .decodeTemp] (304 + 9 * k + 1) s t := by
  have h : 304 + 9 * k + 1 = 4 + (40 + (40 + (9 * k + 8 + (4 + (40 + (40 + (128 + (1 + 0)))))))) := by
    omega
  rw [h]
  have pulse := stage_reset (q := .t0) hs rfl
  have skip := stage_send (q := .t1) (c := .skipRom) pulse.bench rfl
  have convert := stage_send (q := .t2) (c := .convertT) skip.bench rfl
  have wait := stage_wait (q := .t3) convert.bench rfl rfl rfl (answers_of ha rfl rfl)
  have pulse' := stage_reset (q := .t4) wait.bench rfl
  have skip' := stage_send (q := .t5) (c := .skipRom) pulse'.bench rfl
  have read := stage_send (q := .t6) (c := .readScratchpad) skip'.bench rfl
  have raw := stage_acc16 (q := .t7) read.bench rfl
  have temp := stage_decodeTemp (q := .t8) raw.bench rfl rfl
  exact ⟨_, .cons pulse <| .cons skip <| .cons convert <| .cons wait <| .cons pulse' <|
    .cons skip' <| .cons read <| .cons raw <| .cons temp <| .nil _⟩

end

/-- Settles O44: the nine stages of `expands_getTemperature`. -/
theorem getTemperatureIsItsExpansion : Obligations.GetTemperatureIsItsExpansion := by
  intro s k hs ha
  obtain ⟨t, h⟩ := expands_getTemperature hs ha
  exact h.same_end (i := .getTemperature) hs rfl (refusal_of_bench hs nofun nofun) rfl

/-- Settles O45: the three stages of `expands_getSerialNumber`. -/
theorem getSerialNumberIsItsExpansion : Obligations.GetSerialNumberIsItsExpansion := by
  intro s hs
  obtain ⟨t, h⟩ := expands_getSerialNumber hs
  exact h.same_end (i := .getSerialNumber) hs rfl (refusal_of_bench hs nofun nofun) rfl

end Sys2Proof.Machine

/-! ## Proofs: one slot, run alone (R100, R104)

The run of a bit operation is the run of its one slot, and what follows the slot puts OWM back to idle:
the slot's own event count, samples and pin are all there is. -/

namespace Sys2Proof.Machine

open Sys2Proof

/-- What a write slot leaves: the bit sent in `BIT`, and its four events (R71, R100). -/
def bitSent (b : Bit) (s : State) : State :=
  { s with bit := some b, trace := s.trace ++ trWriteBit s.params.timing b }

/-- What a read slot leaves: the sampled level in `BIT`, one answer used up, and its eight events
(R72, R104). -/
def bitRead (s : State) : State :=
  { dropSample s with
    bit := some (nextSample s)
    trace := s.trace ++ trReadBit s.params.timing (nextSample s) }

section
variable {s : State} {q : Seq} (hs : s.Idle) (hw : s.HostWaits)
include hs hw

/-- The slot of the bit in `BIT`, in a phase that writes one bit. -/
theorem writeBit_runs {b : Bit} (hq : q.work = .writeBit) (hb : s.bit = some b) :
    Runs 4 (atPhase q s) (atPhase q.after (bitSent b s)) := by
  obtain ⟨-, -, -, hd, hp⟩ := hs
  refine writeSlot_runs (b := b) (done := goto q.after) (fun u hu hw _ hbit _ _ _ => ?_)
    rfl hb hw rfl hd hp ?_
  · rw [step_eq_run hq nofun hu hw, PhaseWork.run, hbit]
    rfl
  · simp [goto, atPhase, bitSent, hb]

/-- The one read slot of a phase that reads one bit. -/
theorem readBit_runs (hq : q.work = .readBit) :
    Runs 8 (atPhase q s) (atPhase q.after (bitRead s)) := by
  obtain ⟨-, -, -, hd, hp⟩ := hs
  exact readSlot_runs (step_eq_run hq nofun rfl hw) (fun u hu hw _ => step_eq_run hq nofun hu hw)
    rfl hw rfl hd hp rfl

end

/-- Settles O25: the operand is in `BIT` from the acceptance on, its slot is `writeBit_runs`, and OWM is
idle after it. -/
theorem writeBitSendsOneSlot : Obligations.WriteBitSendsOneSlot := by
  intro s b hs hw
  have loaded : ({ s with bit := some b } : State).Idle := hs.idle
  rw [exec_of_bench (i := .writeBit b) hs nofun nofun, ← atPhase_of_idle loaded]
  refine ⟨rfl, (writeBit_runs loaded hw rfl rfl).end_eq ?_⟩
  exact atPhase_idle_of_idle (s := bitSent b s) hs.idle

/-- Settles O26: the one sample is the slot's own, `readBit_runs`, and OWM is idle after it. -/
theorem readBitReturnsSample : Obligations.ReadBitReturnsSample := by
  intro s hs hw
  rw [exec_of_bench (i := .readBit) hs nofun nofun, ← atPhase_of_idle hs.idle]
  refine ⟨rfl, (readBit_runs hs.idle hw rfl).end_eq ?_⟩
  exact atPhase_idle_of_idle (s := bitRead s) hs.idle

end Sys2Proof.Machine

/-! ## Proofs: the byte frames, run alone (R120, R125, R127)

The run of a byte operation is the run of its one frame, and OWM is idle after it. -/

namespace Sys2Proof.Machine

open Sys2Proof

/-- Settles O27: the operand is in `BYTE` from the acceptance on, its frame is `writeByte_runs`, and OWM
is idle after it. -/
theorem writeByteSendsFrame : Obligations.WriteByteSendsFrame := by
  intro s v hs hw
  have loaded : ({ s with byte := some v } : State).Idle := hs.idle
  rw [exec_of_bench (i := .writeByte v) hs nofun nofun, ← atPhase_of_idle loaded]
  refine ⟨rfl, (writeByte_runs loaded hw rfl rfl).end_eq ?_⟩
  exact atPhase_idle_of_idle (s := sent v s) hs.idle

/-- What a response frame leaves, over the state with its samples taken (R80). -/
theorem Target.filled_eq {w : Nat} (g : Target w) (s : State) :
    g.filled s = g.put (BitVec.ofNat w (lsbValue (answers w s))) { dropSamples w s with
      bit := (answers w s).getLast?
      trace := s.trace ++ trRead s.params.timing (answers w s) } := by
  rw [Target.filled, dropSamples_eq w s]

theorem byteTarget_put (a : Byte) (s : State) : byteTarget.put a s = { s with byte := some a } := rfl

theorem Target.filled_trace {w : Nat} (g : Target w) (s : State) :
    (g.filled s).trace = s.trace ++ trRead s.params.timing (answers w s) := rfl

/-- Settles O28: the frame is `readByte_runs`, which leaves OWM idle with the samples in `BYTE`. -/
theorem readByteAssemblesSamples : Obligations.ReadByteAssemblesSamples := by
  intro s hs hw
  rw [exec_of_bench (i := .readByte) hs nofun nofun, ← atPhase_of_idle hs.idle]
  refine ⟨rfl, (readByte_runs hs.idle hw).end_eq ?_⟩
  rw [byteTarget.filled_eq, byteTarget_put]

/-- A frame that is answered with the bits of a value ends with the value (R81). -/
theorem Target.Lawful.get_filled {w : Nat} {g : Target w} (hg : g.Lawful) {s : State} {v : BitVec w}
    (ha : answers w s = lsbBits v) : g.get (g.filled s) = some v := by
  rw [Target.filled, hg.get_put, ha, lsbValue_lsbBits, BitVec.ofNat_toNat, BitVec.setWidth_eq]

/-- Settles O47: the three frames, and `Target.Lawful.get_filled` of each accumulator. -/
theorem readingReproducesTheValue : Obligations.ReadingReproducesTheValue := by
  intro s hs hw
  have hidle := hs.idle
  simp only [← atPhase_of_idle hidle]
  exact ⟨
    fun v ha => ⟨_, readByte_runs hidle hw, hidle.1, byteTarget_lawful.get_filled ha⟩,
    fun v ha => ⟨_, acc16_runs hidle hw, hidle.1, rawTarget_lawful.get_filled ha⟩,
    fun v ha => ⟨_, acc64_phase_runs hidle hw rfl, rfl, serialTarget_lawful.get_filled ha⟩⟩

end Sys2Proof.Machine

/-! ## Proofs: how long a trace is and what it samples (R16, R70 to R75) -/

namespace Sys2Proof.Machine

open Sys2Proof

@[simp] theorem samples_append (l m : List Event) : samples (l ++ m) = samples l ++ samples m := by
  induction l with
  | nil => rfl
  | cons e l ih => cases e <;> simp [samples, ih]

theorem samples_flatMap {α : Type} (l : List α) (f : α → List Event) :
    samples (l.flatMap f) = l.flatMap fun a => samples (f a) := by
  induction l with
  | nil => rfl
  | cons a l ih => simp [ih]

theorem length_flatMap_of_forall {α β : Type} {f : α → List β} {n : Nat}
    (h : ∀ a, (f a).length = n) (l : List α) : (l.flatMap f).length = n * l.length := by
  simp [List.length_flatMap, h, Nat.mul_comm]

section
variable (t : Timing) (p : Params)

/-! ### The slots -/

@[simp] theorem length_trWriteBit (b : Bit) : (trWriteBit t b).length = 4 := by cases b <;> rfl

@[simp] theorem samples_trWriteBit (b : Bit) : samples (trWriteBit t b) = [] := by cases b <;> rfl

@[simp] theorem length_trReadBit (b : Bit) : (trReadBit t b).length = 8 := rfl

@[simp] theorem samples_trReadBit (b : Bit) : samples (trReadBit t b) = [b] := rfl

@[simp] theorem length_trReset : (trReset t).length = 4 := rfl

@[simp] theorem samples_trReset : samples (trReset t) = [] := rfl

/-! ### The frames and the wait -/

@[simp] theorem length_trWriteByte (v : Byte) : (trWriteByte t v).length = 40 := by
  rw [trWriteByte, length_flatMap_of_forall (n := 5) (by simp), lsbBits, List.length_map,
    List.length_range]

@[simp] theorem samples_trWriteByte (v : Byte) : samples (trWriteByte t v) = [] := by
  simp [trWriteByte, samples_flatMap, samples]

@[simp] theorem length_trRead (bits : List Bit) : (trRead t bits).length = 8 * bits.length :=
  length_flatMap_of_forall (length_trReadBit t) bits

@[simp] theorem samples_trRead (bits : List Bit) : samples (trRead t bits) = bits := by
  simp [trRead, samples_flatMap]

@[simp] theorem length_trWait (k : Nat) : (trWait t k).length = 9 * k + 8 := by
  induction k with
  | zero => rfl
  | succ k ih => simp [trWait, ih]; omega

@[simp] theorem samples_trWait (k : Nat) :
    samples (trWait t k) = List.replicate k false ++ [true] := by
  induction k with
  | zero => rfl
  | succ k ih => simp [trWait, ih, samples, List.replicate_succ]

/-! ### The public operations -/

theorem length_trGetSerialNumber (bits : List Bit) :
    (trGetSerialNumber p bits).length = 44 + 8 * bits.length := by
  simp [trGetSerialNumber]
  omega

theorem samples_trGetSerialNumber (bits : List Bit) :
    samples (trGetSerialNumber p bits) = bits := by
  simp [trGetSerialNumber]

theorem length_trGetTemperature (k : Nat) (bits : List Bit) :
    (trGetTemperature p k bits).length = 176 + 9 * k + 8 * bits.length := by
  simp [trGetTemperature]
  omega

theorem samples_trGetTemperature (k : Nat) (bits : List Bit) :
    samples (trGetTemperature p k bits) = List.replicate k false ++ [true] ++ bits := by
  simp [trGetTemperature]

end

end Sys2Proof.Machine

/-! ## Proofs: the public operations, from the first phase to the last (R141, R146)

The phases of `pulse_runs`, `send_runs`, `wait_runs`, the response frames and `decode_runs`, in the
order of R32. -/

namespace Sys2Proof.Machine

open Sys2Proof

/-- What `GET_SERIAL_NUMBER` leaves (R146). -/
def serialRead (s : State) : State := serialTarget.filled (sent s.params.codes.readRom (pulsed s))

/-- What the phases of `GET_TEMPERATURE` before its response leave, the wait reading `k` zeros
(R141). -/
def scratchpadAsked (k : Nat) (s : State) : State :=
  let c := s.params.codes
  sent c.readScratchpad <| sent c.skipRom <| pulsed <| waited k <|
    sent c.convertT <| sent c.skipRom <| pulsed s

/-- The sixteen bits that `GET_TEMPERATURE` reads after a wait of `k` zeros (R142). -/
def rawBits (k : Nat) (s : State) : List Bit := answers 16 (dropSamples (k + 1) s)

/-- What `GET_TEMPERATURE` leaves (R141). -/
def temperatureRead (k : Nat) (s : State) : State :=
  interpreted (BitVec.ofNat 16 (lsbValue (rawBits k s))) (rawTarget.filled (scratchpadAsked k s))

section
variable {s : State} {k : Nat}

theorem serialRead_trace (s : State) :
    (serialRead s).trace = s.trace ++ trGetSerialNumber s.params (answers 64 s) := by
  have hans : answers 64 (sent s.params.codes.readRom (pulsed s)) = answers 64 s :=
    answers_congr (by rfl) (by rfl) 64
  rw [serialRead, Target.filled_trace, hans]
  simp [sent, pulsed, trGetSerialNumber]

/-- The response is answered after the wait's samples (R142). -/
theorem answers_scratchpadAsked (k : Nat) (s : State) :
    answers 16 (scratchpadAsked k s) = rawBits k s :=
  have ⟨henv, hdraws⟩ := dropSamples_congr
    (s := sent s.params.codes.convertT (sent s.params.codes.skipRom (pulsed s))) (t := s)
    rfl rfl (k + 1)
  answers_congr henv hdraws 16

theorem temperatureRead_raw (k : Nat) (s : State) :
    (temperatureRead k s).raw = some (BitVec.ofNat 16 (lsbValue (rawBits k s))) := by
  rw [← answers_scratchpadAsked]
  exact rawTarget_lawful.get_put _ _

theorem temperatureRead_trace (k : Nat) (s : State) :
    (temperatureRead k s).trace = s.trace ++ trGetTemperature s.params k (rawBits k s) := by
  simp only [temperatureRead, interpreted, Target.filled_trace, answers_scratchpadAsked]
  simp [scratchpadAsked, sent, pulsed, waited, trGetTemperature]

/-- The samples of the wait and of the response are one after the other (R142). -/
theorem answers_eq_append_rawBits (k : Nat) (s : State) :
    answers (k + 17) s = answers (k + 1) s ++ rawBits k s :=
  answers_add (k + 1) 16 s

theorem drop_answers_eq_rawBits (k : Nat) (s : State) :
    (answers (k + 17) s).drop (k + 1) = rawBits k s := by
  rw [answers_eq_append_rawBits, List.drop_left' (answers_length _ _)]

section
variable (hs : s.Idle) (hw : s.HostWaits)
include hs hw

theorem getSerialNumber_runs : Runs 556 (atPhase .s0 s) (atPhase .idle (serialRead s)) :=
  have pulse := pulse_runs (q := .s0) hs hw rfl
  have code := send_runs (q := .s1) (c := .readRom) (s := pulsed s) hs hw rfl
  have serial := acc64_phase_runs (q := .s2) (s := sent s.params.codes.readRom (pulsed s)) hs hw rfl
  (pulse.trans code).trans serial

theorem getTemperature_runs (ha : answers (k + 1) s = List.replicate k false ++ [true]) :
    Runs (304 + 9 * k + 1) (atPhase .t0 s) (atPhase .idle (temperatureRead k s)) := by
  let c := s.params.codes
  let converting := sent c.convertT (sent c.skipRom (pulsed s))
  let converted := waited k converting
  have pulse := pulse_runs (q := .t0) hs hw rfl
  have skip := send_runs (q := .t1) (c := .skipRom) (s := pulsed s) hs hw rfl
  have convert := send_runs (q := .t2) (c := .convertT) (s := sent c.skipRom (pulsed s)) hs hw rfl
  have wait := wait_runs (q := .t3) (s := converting) hs hw rfl rfl rfl
    (answers_of ha (by rfl) (by rfl))
  have pulse' := pulse_runs (q := .t4) (s := converted) hs hw rfl
  have skip' := send_runs (q := .t5) (c := .skipRom) (s := pulsed converted) hs hw rfl
  have read := send_runs (q := .t6) (c := .readScratchpad)
    (s := sent c.skipRom (pulsed converted)) hs hw rfl
  have raw := acc16_phase_runs (q := .t7) (s := scratchpadAsked k s) hs hw rfl
  have temp := decode_runs (q := .t8) (s := rawTarget.filled (scratchpadAsked k s)) hw rfl
    (temperatureRead_raw k s)
  have polled := ((pulse.trans skip).trans convert).trans wait
  have asked := ((polled.trans pulse').trans skip').trans read
  exact ((asked.trans raw).trans temp).length_eq (by omega)

end

end

/-- Settles O49: each run has the trace of its operation, whose length and samples are counted format by
format. -/
theorem runSizes : Obligations.RunSizes := by
  intro s hready hw
  obtain ⟨-, hs⟩ := hready
  refine ⟨fun v => ?writeByte, ?serial, fun k ha => ?temperature⟩
  case writeByte =>
    have loaded : ({ s with byte := some v } : State).Idle := hs
    rw [← atPhase_of_idle loaded]
    refine ⟨_, writeByte_runs loaded hw rfl rfl, rfl, ?_, ?_⟩ <;> simp [sent]
  case serial =>
    rw [← atPhase_of_idle hs]
    refine ⟨_, getSerialNumber_runs hs hw, rfl, ?_, ?_⟩
    · simp [serialRead_trace, length_trGetSerialNumber, answers_length]
    · simp [serialRead_trace, samples_trGetSerialNumber]
  case temperature =>
    rw [← atPhase_of_idle hs, drop_answers_eq_rawBits, answers_eq_append_rawBits, ha]
    refine ⟨_, getTemperature_runs hs hw ha, rfl, ?_, ?_, temperatureRead_raw k s⟩
    · have hlen : (rawBits k s).length = 16 := answers_length _ _
      simp [temperatureRead_trace, length_trGetTemperature, hlen]
      omega
    · simp [temperatureRead_trace, samples_trGetTemperature]

end Sys2Proof.Machine

/-! ## Proofs: the operations of the sequencer, run alone (R136, R138, R150) -/

namespace Sys2Proof.Machine

open Sys2Proof

/-- The one event of `INIT`; the pin may be anything before it (R150). -/
theorem configure_runs {s : State} {q : Seq} (hw : s.HostWaits) (hq : q.work = .configure) :
    Runs 1 (atPhase q s)
      (atPhase q.after (recordEvent (.cfg true s.params.pinSpeed) (atPhase q s))) :=
  Runs.one ((step_eq_run (u := atPhase q s) hq nofun rfl hw).trans rfl)

/-- Settles O24: nothing refuses `INIT`, and its run is `configure_runs`. -/
theorem initConfiguresPin : Obligations.InitConfiguresPin := by
  intro s hi hb hz hw
  have entered : atPhase .i0 s = { s with seq := .i0 } := by simp [atPhase, hb, hz]
  have accepted : Instr.init.refusal s = none := if_pos rfl
  rw [exec_accepted hi accepted, ← entered]
  refine ⟨rfl, (configure_runs hw rfl).end_eq ?_⟩
  simp [atPhase, Seq.after, recordEvent, applyEvent, hi, hb, hz]

/-- Settles O29: the pulse is `pulse_runs`, and OWM is idle after it. -/
theorem busResetPulse : Obligations.BusResetPulse := by
  intro s hs hw
  rw [exec_of_bench (i := .reset) hs nofun nofun, ← atPhase_of_idle hs.idle]
  refine ⟨rfl, (pulse_runs hs.idle hw rfl).end_eq ?_⟩
  exact atPhase_idle_of_idle (s := pulsed s) hs.idle

/-- What the wait leaves, over the state with its samples taken (R138). -/
theorem waited_eq (k : Nat) (s : State) :
    waited k s = { dropSamples (k + 1) s with
      bit := some true, trace := s.trace ++ trWait s.params.timing k } := by
  rw [waited, dropSamples_eq (k + 1) s]

/-- Settles O30: the polls are `wait_runs`, and OWM is idle after the last. -/
theorem waitConvEndsAtFirstOne : Obligations.WaitConvEndsAtFirstOne := by
  intro s k hs hw ha
  rw [exec_of_bench (i := .waitConv) hs nofun nofun, ← atPhase_of_idle hs.idle, ← waited_eq]
  refine ⟨rfl, (wait_runs (q := .x .waitConv) hs.idle hw rfl rfl rfl ha).end_eq ?_⟩
  exact atPhase_idle_of_idle (s := waited k s) hs.idle

end Sys2Proof.Machine

/-! ## Proofs: the public operations that read the sensor (R141 to R147, R168)

The runs are `getTemperature_runs` and `getSerialNumber_runs`; what they leave is written here over the
state with the samples taken, in which the environment has moved on and nothing else has. -/

namespace Sys2Proof.Machine

open Sys2Proof

/-- A public operation is accepted by a configured OWM and has no operand to load (R88, R225). -/
theorem exec_of_ready {i : Instr} {s : State} (hs : s.Ready) (hi : i.isPublic = true) :
    exec i s = .next { s with seq := i.entry } := by
  obtain ⟨hc, hidle⟩ := hs
  have accepted : i.refusal s = none := by
    cases i <;> cases hi <;> simp [Instr.refusal, Instr.isPublic, hc]
  have unloaded : i.load s = s := by
    cases i <;> cases hi <;> rfl
  rw [exec_accepted hidle.1 accepted, unloaded, atPhase_of_idle hidle]

/-- What `GET_SERIAL_NUMBER` leaves, over the state with its samples taken (R146). -/
theorem serialRead_eq (s : State) :
    serialRead s = { dropSamples 64 s with
      byte := some s.params.codes.readRom
      bit := (answers 64 s).getLast?
      serial := some (BitVec.ofNat 64 (lsbValue (answers 64 s)))
      trace := s.trace ++ trGetSerialNumber s.params (answers 64 s) } := by
  let u := sent s.params.codes.readRom (pulsed s)
  have hans : answers 64 u = answers 64 s := answers_congr (by rfl) (by rfl) 64
  obtain ⟨henv, hdraws⟩ := dropSamples_congr (s := u) (t := s) rfl rfl 64
  rw [← serialRead_trace, dropSamples_eq 64 s, ← henv, ← hdraws, ← hans]
  rfl

/-- Settles O36: the phases are `getSerialNumber_runs`, which leave OWM idle as `serialRead_eq` says. -/
theorem getSerialNumberRun : Obligations.GetSerialNumberRun := by
  intro s hs hw
  refine ⟨exec_of_ready (i := .getSerialNumber) hs rfl, ?_⟩
  obtain ⟨-, hidle⟩ := hs
  rw [← atPhase_of_idle hidle, ← serialRead_eq]
  exact (getSerialNumber_runs hidle hw).end_eq <|
    atPhase_idle_of_idle (s := serialRead s) hidle

/-- The interpretation of a sixteen-bit number (R168 to R171). -/
theorem interpreted_ofNat {raw : Nat} (h : raw < 2 ^ 16) (s : State) :
    interpreted (BitVec.ofNat 16 raw) s = { s with
      sign := if raw ≤ 0x0FFF then .plus else .minus
      temp := some (BitVec.ofNat 16
        (if raw ≤ 0x0FFF then raw * 10 / 16 else (0xFFFF - raw) * 10 / 16)) } := by
  have htoNat : (BitVec.ofNat 16 raw).toNat = raw :=
    (BitVec.toNat_ofNat raw 16).trans (Nat.mod_eq_of_lt h)
  rw [interpreted, signOfRaw_eq, tempOfRaw, scaleToTenths, magnitudeOfRaw_toNat, htoNat, ite_mul,
    apply_ite (· / 16)]

/-- What the response of `GET_TEMPERATURE` leaves, over the state with all its samples taken (R142). -/
theorem scratchpadRead_eq (k : Nat) (s : State) :
    rawTarget.filled (scratchpadAsked k s) = { dropSamples (k + 17) s with
      byte := some s.params.codes.readScratchpad
      bit := (rawBits k s).getLast?
      raw := some (BitVec.ofNat 16 (lsbValue (rawBits k s)))
      trace := s.trace ++ trGetTemperature s.params k (rawBits k s) } := by
  obtain ⟨henv, hdraws⟩ := dropSamples_congr
    (s := sent s.params.codes.convertT (sent s.params.codes.skipRom (pulsed s))) (t := s)
    rfl rfl (k + 1)
  obtain ⟨henv, hdraws⟩ := dropSamples_add_of_drop (t := scratchpadAsked k s) henv hdraws 16
  rw [← temperatureRead_trace, dropSamples_eq (k + 17) s, henv, hdraws, ← answers_scratchpadAsked]
  rfl

/-- What `GET_TEMPERATURE` leaves, over the state with its samples taken (R141, R168). -/
theorem temperatureRead_eq (k : Nat) (s : State) {raw : Nat} (hraw : raw = lsbValue (rawBits k s)) :
    temperatureRead k s = { dropSamples (k + 17) s with
      byte := some s.params.codes.readScratchpad
      bit := (rawBits k s).getLast?
      raw := some (BitVec.ofNat 16 raw)
      sign := if raw ≤ 0x0FFF then .plus else .minus
      temp := some (BitVec.ofNat 16
        (if raw ≤ 0x0FFF then raw * 10 / 16 else (0xFFFF - raw) * 10 / 16))
      trace := s.trace ++ trGetTemperature s.params k (rawBits k s) } := by
  have hlen : (rawBits k s).length = 16 := answers_length _ _
  have hlt : raw < 2 ^ 16 := hraw ▸ hlen ▸ lsbValue_lt (rawBits k s)
  rw [temperatureRead, ← hraw, interpreted_ofNat hlt, scratchpadRead_eq, ← hraw]

/-- Settles O35: the phases are `getTemperature_runs`, which leave OWM idle as `temperatureRead_eq`
says. -/
theorem getTemperatureRun : Obligations.GetTemperatureRun := by
  intro s k raw hs hw ha hraw
  refine ⟨exec_of_ready (i := .getTemperature) hs rfl, ?_⟩
  obtain ⟨-, hidle⟩ := hs
  rw [← atPhase_of_idle hidle, ← rawBits, ← temperatureRead_eq k s hraw]
  exact (getTemperature_runs hidle hw ha).end_eq <|
    atPhase_idle_of_idle (s := temperatureRead k s) hidle

end Sys2Proof.Machine

/-! ## Proofs: a wait that never ends (R139, R194)

On a line that only reads 0 every step of `GET_TEMPERATURE` before its second reset pulse leads to
another such state: a poll goes on to the delay, and the delay to the next poll. -/

namespace Sys2Proof.Machine

open Sys2Proof

/-! ### A line that only reads 0 -/

/-- Every sample to come is 0. -/
def ReadsZero (s : State) : Prop := ∀ m, answers m s = List.replicate m false

section
variable {s t : State}

theorem ReadsZero.nextSample (h : ReadsZero s) : nextSample s = false :=
  (List.cons.inj (h 1)).1

theorem ReadsZero.dropSample (h : ReadsZero s) : ReadsZero (dropSample s) := fun m =>
  (List.cons.inj (h (m + 1))).2

theorem ReadsZero.congr (h : ReadsZero s) (henv : t.env = s.env) (hdraws : t.draws = s.draws) :
    ReadsZero t := fun m => (answers_congr henv hdraws m).trans (h m)

/-- An event leaves the answers to come, or takes the first of them. -/
theorem ReadsZero.emits {e : Event} (h : ReadsZero s) (he : Emits e s t) : ReadsZero t := by
  have hed := he.env_draws
  split at hed
  · obtain ⟨henv, hdraws⟩ := Prod.mk.inj hed
    exact h.dropSample.congr henv hdraws
  · obtain ⟨henv, hdraws⟩ := Prod.mk.inj hed
    exact h.congr henv hdraws

/-- No instruction puts anything else on the line (R13). -/
theorem exec_readsZero {i : Instr} (h : ReadsZero s) (ht : exec i s = .next t) : ReadsZero t := by
  cases exec_next ht with
  | starts _ _ hq => exact h.congr hq.env hq.draws
  | decodes _ _ _ ht => subst ht; exact h.congr rfl rfl
  | emits _ _ e _ he => exact h.emits he

/-! ### The phase after a step -/

/-- The step stays in the phase or goes to the first position of `q`. -/
def Moves (q : Seq) (s t : State) : Prop := t.seq = s.seq ∨ t.seq = q ∧ t.slot = 0

variable {q : Seq}

theorem moves_of_goto {u : State} (h : goto q u = .next t) : Moves q s t := by
  rw [goto_next h]
  exact .inr ⟨rfl, rfl⟩

/-! The works of the phases before the second reset pulse. -/

theorem pulse_moves (h : resetPulse (goto q) s = .next t) : Moves q s t := by
  obtain ⟨e, -, -, ⟨-, rfl⟩ | ⟨-, h⟩⟩ := resetPulse_next h
  · exact .inl (recordEvent_seq e s)
  · exact moves_of_goto h

theorem send_moves {v : Byte} (h : sendByte v (goto q) s = .next t) : Moves q s t := by
  obtain ⟨v', e, -, -, -, rfl | h⟩ := sendByte_next h
  · refine .inl ((recordEvent_seq e _).trans ?_)
    unfold loadBit
    split <;> rfl
  · obtain ⟨-, rfl⟩ | ⟨-, h⟩ := nextBit_next h
    · exact .inl (recordEvent_seq e _)
    · exact moves_of_goto h

/-- From its sample on a read slot has a 0 in `BIT`. -/
def SampledZero (s : State) : Prop := 6 ≤ s.slot → s.bit = some false

theorem sampledZero_of_start (h : s.slot = 0) : SampledZero s := fun hk => by omega

/-- A read slot that samples a 0 goes on, or ends with the 0 in `BIT`. -/
theorem readSlot_sampledZero {done : State → Result} (hns : nextSample s = false)
    (hb : SampledZero s) (h : readSlot done s = .next t) :
    t.seq = s.seq ∧ SampledZero t ∨ ∃ e, s.bit = some false ∧ done (recordEvent e s) = .next t := by
  unfold readSlot at h
  split at h
  case h_6 =>
    obtain ⟨-, hk⟩ := sample_next h
    rw [nextSlot_next hk]
    exact .inl ⟨rfl, fun _ => congrArg some hns⟩
  case h_7 hs =>
    obtain ⟨-, rfl⟩ := emit_nextSlot h
    exact .inl ⟨rfl, fun _ => hb (by omega)⟩
  case h_8 hs => exact .inr ⟨_, hb (by omega), (emit_next h).2⟩
  case h_9 => cases h
  all_goals
    obtain ⟨-, rfl⟩ := emit_nextSlot h
    exact .inl ⟨rfl, fun hk => absurd hk (by simp [advance]; omega)⟩

/-- A poll that samples a 0 does not exit (R138). -/
theorem poll_moves {exit : State → Result} (hns : nextSample s = false) (hb : SampledZero s)
    (h : pollOnce q exit s = .next t) : Moves q s t ∧ SampledZero t := by
  obtain ⟨hseq, hb⟩ | ⟨e, hbit, h⟩ := readSlot_sampledZero hns hb h
  · exact ⟨.inl hseq, hb⟩
  · rw [recordEvent_bit, hbit] at h
    rw [goto_next h]
    exact ⟨.inr ⟨rfl, rfl⟩, sampledZero_of_start rfl⟩

end

/-- The phase that follows when the line reads 0 (R32, R138). -/
def Seq.onZero : Seq → Seq
  | .t3 => .t3d
  | q => q.after

/-- The phases of `GET_TEMPERATURE` before its second reset pulse (R32). -/
def waitPhases : List Seq := [.t0, .t1, .t2, .t3, .t3d]

theorem waitPhases_subset : waitPhases ⊆ Instr.getTemperature.phases := by decide

theorem ne_idle_of_mem_waitPhases : ∀ q ∈ waitPhases, q ≠ .idle := by decide

theorem decodes_of_mem_waitPhases : ∀ q ∈ waitPhases, q.decodes = false := by decide

/-- Of the data registers these phases write `BIT` and `BYTE` at most (R47). -/
theorem writes_of_mem_waitPhases : ∀ q ∈ waitPhases, q.work.writes ⊆ [.bit, .byte] := by decide

theorem current_of_mem_waitPhases {s : State} (h : s.seq ∈ waitPhases) :
    s.current = some .getTemperature := by
  simp only [waitPhases, List.mem_cons, List.not_mem_nil, or_false] at h
  obtain h | h | h | h | h := h <;> simp [State.current, h]

/-- None of them begins with a register to read. -/
theorem regsOk_of_mem_waitPhases {q : Seq} (h : q ∈ waitPhases) (s : State) :
    q.work.RegsOk (atPhase q s) := by
  simp only [waitPhases, List.mem_cons, List.not_mem_nil, or_false] at h
  obtain rfl | rfl | rfl | rfl | rfl := h <;>
    simp [Seq.work, PhaseWork.RegsOk, State.atFrameStart]

/-- A step in one of them stays in its phase or goes on as a line that reads 0 makes it. -/
theorem phaseStep_moves {s t : State} (hq : s.seq ∈ waitPhases) (hns : nextSample s = false)
    (hb : s.seq = .t3 → SampledZero s) (h : s.phaseStep = .next t) :
    Moves s.seq.onZero s t ∧ (s.seq = .t3 → SampledZero t) := by
  unfold State.phaseStep at h
  simp only [waitPhases, List.mem_cons, List.not_mem_nil, or_false] at hq
  obtain hs | hs | hs | hs | hs := hq <;> rw [hs] at h ⊢
  · exact ⟨pulse_moves h, nofun⟩
  · exact ⟨send_moves h, nofun⟩
  · exact ⟨send_moves h, nofun⟩
  · obtain ⟨hm, hb⟩ := poll_moves hns (hb hs) h
    exact ⟨hm, fun _ => hb⟩
  · rw [pollDelay_next h]
    exact ⟨.inr ⟨rfl, rfl⟩, nofun⟩

/-! ### The wait goes on -/

/-- `GET_TEMPERATURE` in one of the phases `ps`, the line reading 0 for ever, and no result written since
`s₀`. -/
structure Waiting (ps : List Seq) (s₀ s : State) : Prop where
  inv : Inv s
  hostWaits : s.HostWaits
  readsZero : ReadsZero s
  phase : s.seq ∈ ps
  sampled : s.seq = .t3 → SampledZero s
  temp : s.temp = s₀.temp
  sign : s.sign = s₀.sign
  raw : s.raw = s₀.raw
  serial : s.serial = s₀.serial

/-- On a ready OWM any of the phases may begin. -/
theorem waiting_atPhase {ps : List Seq} {q : Seq} {s : State} (hs : s.Ready) (hw : s.HostWaits)
    (hz : ReadsZero s) (hq : q ∈ ps) (hps : ps ⊆ waitPhases) : Waiting ps s (atPhase q s) where
  inv := by
    obtain ⟨hc, -, -, -, hd, ho⟩ := hs
    exact AtRest.inv_atPhase ⟨hc, ho, hd⟩ (regsOk_of_mem_waitPhases (hps hq) s)
  hostWaits := hw
  readsZero := hz.congr rfl rfl
  phase := hq
  sampled := fun _ => sampledZero_of_start rfl
  temp := rfl
  sign := rfl
  raw := rfl
  serial := rfl

section
variable {ps : List Seq} (hps : ps ⊆ waitPhases) (hclosed : ∀ q ∈ ps, q.onZero ∈ ps)
include hps hclosed

/-- The invariant lets the step be taken, and whatever the phase may lead to is waiting again. -/
theorem Waiting.step {s₀ s : State} (h : Waiting ps s₀ s) :
    ∃ t, step s = .next t ∧ Waiting ps s₀ t := by
  have hq := hps h.phase
  have hbusy := ne_idle_of_mem_waitPhases _ hq
  obtain ⟨t, ht, hinv⟩ := phaseStep_lands h.inv hbusy
  have hexec := (exec_of_mem_phases (waitPhases_subset hq)).trans ht
  obtain ⟨hmoves, hsampled⟩ := phaseStep_moves hq h.readsZero.nextSample h.sampled ht
  obtain ⟨hhost, -⟩ := exec_keeps_host_params hexec
  obtain ⟨hsign, htemp⟩ := exec_keeps_sign_temp (decodes_of_mem_waitPhases _ hq) hexec
  have hkeeps := (run_keeps ht).mono (writes_of_mem_waitPhases _ hq)
  exact ⟨t, (step_eq_phaseStep h.hostWaits hbusy).trans ht, {
    inv := hinv
    hostWaits := by
      rw [State.HostWaits, hhost]
      exact h.hostWaits
    readsZero := exec_readsZero h.readsZero hexec
    phase := by
      obtain hseq | ⟨hseq, -⟩ := hmoves
      · exact hseq ▸ h.phase
      · exact hseq ▸ hclosed _ h.phase
    sampled := by
      obtain hseq | ⟨-, hslot⟩ := hmoves
      · exact hseq ▸ hsampled
      · exact fun _ => sampledZero_of_start hslot
    temp := htemp.trans h.temp
    sign := hsign.trans h.sign
    raw := (hkeeps.raw (by decide)).trans h.raw
    serial := (hkeeps.serial (by decide)).trans h.serial }⟩

/-- So the wait has no last step (R139). -/
theorem Waiting.runs {s₀ s : State} (h : Waiting ps s₀ s) (n : Nat) :
    ∃ t, Runs n s t ∧ Waiting ps s₀ t := by
  induction n generalizing s with
  | zero => exact ⟨s, Runs.zero s, h⟩
  | succ n ih =>
    obtain ⟨t, ht, hwait⟩ := h.step hps hclosed
    obtain ⟨u, hu, hwait⟩ := ih hwait
    exact ⟨u, Runs.cons ht hu, hwait⟩

end

/-- The reset pulse and the two bytes before the first poll (R141). -/
theorem firstPoll_runs {s : State} (hs : s.Idle) (hw : s.HostWaits) :
    Runs 84 (atPhase .t0 s)
      (atPhase .t3 (sent s.params.codes.convertT (sent s.params.codes.skipRom (pulsed s)))) :=
  have pulse := pulse_runs (q := .t0) hs hw rfl
  have skip := send_runs (q := .t1) (c := .skipRom) (s := pulsed s) hs hw rfl
  have convert := send_runs (q := .t2) (c := .convertT)
    (s := sent s.params.codes.skipRom (pulsed s)) hs hw rfl
  (pulse.trans skip).trans convert

/-- From the first event on the wait goes on, and once the first poll has begun, in `T3` and `T3D`. -/
theorem endlessWait_runs {s : State} (hs : s.Ready) (hw : s.HostWaits) (hz : ReadsZero s) (n : Nat) :
    ∃ t, Runs n (atPhase .t0 s) t ∧ Waiting waitPhases s t ∧
      (84 ≤ n → t.seq = .t3 ∨ t.seq = .t3d) := by
  obtain hn | hn := Nat.lt_or_ge n 84
  · have start := waiting_atPhase (ps := waitPhases) (q := .t0) hs hw hz (by decide) (by decide)
    obtain ⟨t, r, h⟩ := start.runs (by decide) (by decide) n
    exact ⟨t, r, h, fun h84 => absurd hn (Nat.not_lt.2 h84)⟩
  · obtain ⟨m, rfl⟩ := Nat.exists_eq_add_of_le hn
    let polling := sent s.params.codes.convertT (sent s.params.codes.skipRom (pulsed s))
    have start := waiting_atPhase (ps := [.t3, .t3d]) (q := .t3) (s := polling) hs hw
      (hz.congr rfl rfl) (by decide) (by decide)
    obtain ⟨t, r, h⟩ := start.runs (by decide) (by decide) m
    have hpoll : t.seq = .t3 ∨ t.seq = .t3d := by simpa using h.phase
    have hphase : t.seq ∈ waitPhases := by simp [waitPhases, hpoll]
    exact ⟨t, (firstPoll_runs hs.2 hw).trans r,
      { inv := h.inv, hostWaits := h.hostWaits, readsZero := h.readsZero, phase := hphase
        sampled := h.sampled, temp := h.temp, sign := h.sign, raw := h.raw, serial := h.serial },
      fun _ => hpoll⟩

/-- Settles O38: the runs of `endlessWait_runs` stay in phases of `GET_TEMPERATURE` that come before
the second reset pulse. -/
theorem endlessWait : Obligations.EndlessWait := by
  intro s hs hw hz n
  obtain ⟨t, r, h, hpoll⟩ := endlessWait_runs hs hw hz n
  have hne : ∀ q ∈ waitPhases, q ≠ .t4 ∧ q ≠ .t8 := by decide
  obtain ⟨h4, h8⟩ := hne _ h.phase
  rw [← atPhase_of_idle hs.2]
  exact ⟨t, r, current_of_mem_waitPhases h.phase, h4, h8, h.temp, h.sign, h.raw, h.serial, hpoll⟩

end Sys2Proof.Machine

/-! ## Proofs: the payload decoder (R165 to R176)

The accumulations are their response frames run alone. The interpretation is one step, of
`DECODE_TEMP` or of the last phase of `GET_TEMPERATURE`; what it writes is `signOfRaw` and `tempOfRaw`
of `RAW`, and the laws of the reading are theirs. -/

namespace Sys2Proof.Machine

open Sys2Proof

/-! ### The accumulations (R165 to R167, R175, R176) -/

theorem rawTarget_put (a : Half) (s : State) : rawTarget.put a s = { s with raw := some a } := rfl

theorem serialTarget_put (a : Wide) (s : State) :
    serialTarget.put a s = { s with serial := some a } := rfl

/-- `ACC64`, run alone (R175, R176). -/
theorem acc64_runs {s : State} (hs : s.Idle) (hw : s.HostWaits) :
    Runs 512 (atPhase (.x .acc64) s) (serialTarget.filled s) :=
  (acc64_phase_runs (q := .x .acc64) hs hw rfl).end_eq <|
    atPhase_idle_of_idle (s := serialTarget.filled s) hs

/-- Settles O31: the frame is `acc16_runs`, which leaves OWM idle with the samples in `RAW`. -/
theorem acc16AssemblesRaw : Obligations.Acc16AssemblesRaw := by
  intro s hs hw
  rw [exec_of_bench (i := .acc16) hs nofun nofun, ← atPhase_of_idle hs.idle]
  refine ⟨rfl, (acc16_runs hs.idle hw).end_eq ?_⟩
  rw [rawTarget.filled_eq, rawTarget_put]

/-- Settles O32: the frame is `acc64_runs`, which leaves OWM idle with the samples in `SERIAL`. -/
theorem acc64AssemblesSerial : Obligations.Acc64AssemblesSerial := by
  intro s hs hw
  rw [exec_of_bench (i := .acc64) hs nofun nofun, ← atPhase_of_idle hs.idle]
  refine ⟨rfl, (acc64_runs hs.idle hw).end_eq ?_⟩
  rw [serialTarget.filled_eq, serialTarget_put]

/-! ### The reading of a raw value (R168 to R173) -/

theorem signOfRaw_eq_plus_iff (raw : Half) : signOfRaw raw = .plus ↔ raw.toNat ≤ 0x0FFF := by
  simp [signOfRaw_eq]

theorem signOfRaw_eq_minus_iff (raw : Half) : signOfRaw raw = .minus ↔ 0x0FFF < raw.toNat := by
  simp [signOfRaw_eq]

theorem tempOfRaw_toNat_of_plus {raw : Half} (h : signOfRaw raw = .plus) :
    (tempOfRaw raw).toNat = raw.toNat * 10 / 16 := by
  rw [tempOfRaw_toNat, if_pos ((signOfRaw_eq_plus_iff raw).1 h)]

theorem tempOfRaw_toNat_of_minus {raw : Half} (h : signOfRaw raw = .minus) :
    (tempOfRaw raw).toNat = (0xFFFF - raw.toNat) * 10 / 16 := by
  rw [tempOfRaw_toNat, if_neg ((signOfRaw_eq_minus_iff raw).1 h).not_ge]

/-- The one's complement of a non-negative raw value is negative (R169, R170). -/
theorem signOfRaw_not {raw : Half} (h : signOfRaw raw = .plus) : signOfRaw (~~~raw) = .minus := by
  rw [signOfRaw_eq_plus_iff] at h
  rw [signOfRaw_eq_minus_iff, BitVec.toNat_not]
  omega

/-- A non-negative raw value and its one's complement have the same magnitude (R170). -/
theorem tempOfRaw_not {raw : Half} (h : signOfRaw raw = .plus) :
    tempOfRaw (~~~raw) = tempOfRaw raw := by
  have hlt := raw.isLt
  apply BitVec.eq_of_toNat_eq
  rw [tempOfRaw_toNat_of_minus (signOfRaw_not h), tempOfRaw_toNat_of_plus h, BitVec.toNat_not]
  omega

/-! ### The step of the interpretation (R168) -/

/-- Settles O33: `RAW` holds a value, so nothing refuses the request; its one step is `decode_runs`, and
what it writes is `interpreted_ofNat` at the value. -/
theorem decodeTempResult : Obligations.DecodeTempResult := by
  intro s raw hs hw hraw
  have accepted : Instr.decodeTemp.refusal s = none :=
    refusal_of_bench hs nofun fun _ => by simp [hraw]
  rw [exec_accepted hs.idle.1 accepted, ← atPhase_of_idle hs.idle, ← interpreted_ofNat raw.isLt,
    BitVec.ofNat_toNat, BitVec.setWidth_eq]
  refine ⟨rfl, (decode_runs (q := .x .decodeTemp) hw rfl hraw).end_eq ?_⟩
  exact atPhase_idle_of_idle (s := interpreted raw s) hs.idle

/-- A busy OWM takes the next step of its phase, whatever moves the host makes short of a hardware
reset (R198, R233). -/
theorem step_eq_phaseStep_of_busy {s : State} (hb : s.seq ≠ .idle)
    (hr : s.host.head? ≠ some .hardReset) :
    ∃ l, step s = ({ s with host := l } : State).phaseStep := by
  cases step_cases s with
  | reset l hh _ => simp [hh] at hr
  | carriesOn l i _ hc e =>
    exact ⟨l, e.trans (exec_of_mem_phases (mem_phases_of_current (s := { s with host := l }) hc))⟩
  | waits _ _ hi _ => exact absurd hi hb
  | starts _ _ _ _ hi _ _ => exact absurd hi hb
  | rejects _ _ _ _ hi _ _ => exact absurd hi hb

/-- The step of a phase that interprets `RAW`, alone or in `GET_TEMPERATURE`. -/
theorem step_of_decodes {s : State} {raw : Half} (hq : s.seq.decodes = true)
    (hr : s.host.head? ≠ some .hardReset) (hraw : s.raw = some raw) :
    ∃ l, step s = .next (atPhase s.seq.after (interpreted raw { s with host := l })) := by
  have hb : s.seq ≠ .idle := fun hi => by simp [hi, Seq.decodes] at hq
  obtain ⟨l, h⟩ := step_eq_phaseStep_of_busy hb hr
  refine ⟨l, h.trans ?_⟩
  rw [State.phaseStep, decodes_of_work.2 hq, PhaseWork.run, decodeTempNow, hraw]
  rfl

/-- Settles O34: the step writes `signOfRaw` and `tempOfRaw` of `RAW` (`step_of_decodes`), and so it does
of the one's complement. -/
theorem decodeTempLaws : Obligations.DecodeTempLaws := by
  intro s t raw temp hq hraw hr h htemp
  have hq := (Seq.decodes_iff _).2 hq
  obtain ⟨l, e⟩ := step_of_decodes hq hr hraw
  obtain rfl := Host.Outcome.next.inj (h.symm.trans e)
  obtain rfl : tempOfRaw raw = temp := Option.some.inj htemp
  refine ⟨signOfRaw_eq_plus_iff raw, fun (hplus : signOfRaw raw = .plus) => ?plus,
    fun (hminus : signOfRaw raw = .minus) => ?minus, fun hle => ?complement⟩
  case plus =>
    have hle := (signOfRaw_eq_plus_iff raw).1 hplus
    rw [tempOfRaw_toNat_of_plus hplus]
    omega
  case minus =>
    have hgt := (signOfRaw_eq_minus_iff raw).1 hminus
    rw [tempOfRaw_toNat_of_minus hminus]
    omega
  case complement =>
    have hplus := (signOfRaw_eq_plus_iff raw).2 hle
    obtain ⟨l, e⟩ := step_of_decodes (s := { s with raw := some (~~~raw) }) hq hr rfl
    exact ⟨_, e, congrArg some (tempOfRaw_not hplus), signOfRaw_not hplus⟩

end Sys2Proof.Machine

/-! ## Proofs: requests made while busy (R198, R201)

At the host port the request is dropped, so the running operation takes the step it takes when the host
makes no move. In `exec` the phase in progress belongs to the running operation and to no other. -/

namespace Sys2Proof.Machine

open Sys2Proof

/-- A busy OWM drops a request made at once (R198). -/
theorem nextAction_requestNow_of_busy {s : State} (hb : s.busy = true) (w : CommandWord)
    (l : List HostMove) :
    nextAction { s with host := .requestNow w :: l } = nextAction { s with host := .pass :: l } :=
  if_pos hb

/-- Settles O15: the two moves give one action. -/
theorem requestWhileBusyIsWithoutEffect : Obligations.RequestWhileBusyIsWithoutEffect := by
  intro s w l hb
  rw [step, step, nextAction_requestNow_of_busy hb]

/-- A phase of an operation is a phase of no other: the instruction in progress is the one whose phase
it is, but for the operand of a `WRITE_BIT` or a `WRITE_BYTE`, which the register holds. -/
theorem current_of_mem_phases {i : Instr} {s : State} (h : s.seq ∈ i.phases) :
    s.current = some i ∨ (∃ b c, i = .writeBit b ∧ s.current = some (.writeBit c)) ∨
      ∃ v w, i = .writeByte v ∧ s.current = some (.writeByte w) := by
  cases i with
  | writeBit b =>
    obtain hs : s.seq = .x .writeBit := List.mem_singleton.1 h
    exact .inr (.inl ⟨b, _, rfl, by rw [State.current, hs]⟩)
  | writeByte v =>
    obtain hs : s.seq = .x .writeByte := List.mem_singleton.1 h
    exact .inr (.inr ⟨v, _, rfl, by rw [State.current, hs]⟩)
  | _ =>
    left
    revert h
    simp +contextual [Instr.phases, or_imp, State.current, Instr.ofCommand, SentCommand.toCommand]

/-- Settles O16: the phase in progress is none of the other operation's (`current_of_mem_phases`), so
`exec` refuses it. -/
theorem otherOperationRefusedWhileBusy : Obligations.OtherOperationRefusedWhileBusy := by
  intro s i j hj hne hbit hbyte
  have hb : s.seq ≠ .idle := fun hi => by simp [(current_none_iff s).2 hi] at hj
  refine exec_of_not_mem_phases hb fun hp => ?_
  obtain hi | ⟨b, c, hi, hc⟩ | ⟨v, w, hi, hc⟩ := current_of_mem_phases hp
  · exact hne (Option.some.inj (hi.symm.trans hj))
  · exact hbit b c ⟨hi, Option.some.inj (hj.symm.trans hc)⟩
  · exact hbyte v w ⟨hi, Option.some.inj (hj.symm.trans hc)⟩

end Sys2Proof.Machine

/-! ## Proofs: the delay a trace asks for (R101, R107, R122, R239)

Both totals add up over a trace that is put together from others, so each format's total is that of its
parts. Every write slot asks for `T_W_SLOT`, whichever bit it sends, when the setting meets R9. -/

namespace Sys2Proof.Machine

open Sys2Proof

@[simp] theorem requestedUs_append (l m : List Event) :
    requestedUs (l ++ m) = requestedUs l + requestedUs m := by
  induction l with
  | nil => simp [requestedUs]
  | cons e l ih => cases e <;> simp [requestedUs, ih, Nat.add_assoc]

@[simp] theorem requestedMs_append (l m : List Event) :
    requestedMs (l ++ m) = requestedMs l + requestedMs m := by
  induction l with
  | nil => simp [requestedMs]
  | cons e l ih => cases e <;> simp [requestedMs, ih, Nat.add_assoc]

/-- A total that adds up over traces, of parts that all come to `n`. -/
theorem total_flatMap {total : List Event → Nat}
    (happend : ∀ l m, total (l ++ m) = total l + total m)
    {α : Type} {f : α → List Event} {n : Nat} (h : ∀ a, total (f a) = n) (l : List α) :
    total (l.flatMap f) = l.length * n := by
  induction l with
  | nil => simpa using happend [] []
  | cons a l ih =>
    rw [List.flatMap_cons, happend, h, ih, List.length_cons]
    ring

section
variable {t : Timing} (ht : t.WellFormed)

/-! ### The slots -/

include ht in
/-- R9 makes the two write slots equally long (R101). -/
theorem requestedUs_trWriteBit (b : Bit) : requestedUs (trWriteBit t b) = t.writeSlot := by
  obtain ⟨-, hslot⟩ := ht
  cases b with
  | true => rfl
  | false => exact hslot.symm

@[simp] theorem requestedMs_trWriteBit (b : Bit) : requestedMs (trWriteBit t b) = 0 := by
  cases b <;> rfl

@[simp] theorem requestedUs_trReadBit (b : Bit) : requestedUs (trReadBit t b) = t.readSlot := by
  simp [trReadBit, requestedUs, Timing.readSlot, Nat.add_assoc]

@[simp] theorem requestedMs_trReadBit (b : Bit) : requestedMs (trReadBit t b) = 0 := rfl

@[simp] theorem requestedUs_trReset : requestedUs (trReset t) = t.tRstLow + t.tRstWait := rfl

@[simp] theorem requestedMs_trReset : requestedMs (trReset t) = 0 := rfl

/-! ### The frames and the wait -/

include ht in
/-- Eight slots and eight gaps (R122). -/
theorem requestedUs_trWriteByte (v : Byte) :
    requestedUs (trWriteByte t v) = 8 * (t.writeSlot + t.tGap) := by
  have hbit : ∀ b, requestedUs (trWriteBit t b ++ [.dlyUs t.tGap]) = t.writeSlot + t.tGap := by
    simp [requestedUs_trWriteBit ht, requestedUs]
  rw [trWriteByte, total_flatMap requestedUs_append hbit, lsbBits, List.length_map, List.length_range]

@[simp] theorem requestedMs_trWriteByte (v : Byte) : requestedMs (trWriteByte t v) = 0 := by
  rw [trWriteByte, total_flatMap requestedMs_append (n := 0) (by simp [requestedMs]), Nat.mul_zero]

@[simp] theorem requestedUs_trRead (bits : List Bit) :
    requestedUs (trRead t bits) = bits.length * t.readSlot :=
  total_flatMap requestedUs_append requestedUs_trReadBit bits

@[simp] theorem requestedMs_trRead (bits : List Bit) : requestedMs (trRead t bits) = 0 := by
  rw [trRead, total_flatMap requestedMs_append requestedMs_trReadBit, Nat.mul_zero]

/-- A read slot for each zero and one for the one that ends the wait (R138). -/
@[simp] theorem requestedUs_trWait (k : Nat) : requestedUs (trWait t k) = (k + 1) * t.readSlot := by
  induction k with
  | zero => simp [trWait]
  | succ k ih =>
    simp only [trWait, requestedUs_append, requestedUs_trReadBit, ih, requestedUs]
    ring

/-- A poll delay for each zero (R138, R140). -/
@[simp] theorem requestedMs_trWait (k : Nat) : requestedMs (trWait t k) = k * t.tConvPoll := by
  induction k with
  | zero => simp [trWait]
  | succ k ih =>
    simp only [trWait, requestedMs_append, requestedMs_trReadBit, ih, requestedMs]
    ring

end

/-! ### The public operations -/

section
variable {p : Params} (hp : p.timing.WellFormed)

include hp in
theorem requestedUs_trGetSerialNumber (bits : List Bit) :
    requestedUs (trGetSerialNumber p bits) = p.timing.tRstLow + p.timing.tRstWait
      + 8 * (p.timing.writeSlot + p.timing.tGap) + bits.length * p.timing.readSlot := by
  simp [trGetSerialNumber, requestedUs_trWriteByte hp, Nat.add_assoc]

theorem requestedMs_trGetSerialNumber (bits : List Bit) :
    requestedMs (trGetSerialNumber p bits) = 0 := by
  simp [trGetSerialNumber]

include hp in
theorem requestedUs_trGetTemperature (k : Nat) (bits : List Bit) :
    requestedUs (trGetTemperature p k bits) = 2 * (p.timing.tRstLow + p.timing.tRstWait)
      + 32 * (p.timing.writeSlot + p.timing.tGap) + (k + 1 + bits.length) * p.timing.readSlot := by
  simp only [trGetTemperature, requestedUs_append, requestedUs_trReset, requestedUs_trWriteByte hp,
    requestedUs_trWait, requestedUs_trRead]
  ring

theorem requestedMs_trGetTemperature (k : Nat) (bits : List Bit) :
    requestedMs (trGetTemperature p k bits) = k * p.timing.tConvPoll := by
  simp [trGetTemperature]

end

/-- Settles O48: each run has the trace of its operation, whose delays are added up format by format. -/
theorem requestedDelays : Obligations.RequestedDelays := by
  rintro s p ⟨-, hs⟩ hw rfl hp
  refine ⟨fun v => ?writeByte, ?serial, fun k ha => ?temperature⟩
  case writeByte =>
    have loaded : ({ s with byte := some v } : State).Idle := hs
    rw [← atPhase_of_idle loaded]
    refine ⟨_, writeByte_runs loaded hw rfl rfl, rfl, ?_, ?_⟩
    · simp [sent, requestedUs_trWriteByte hp]
    · simp [sent]
  case serial =>
    rw [← atPhase_of_idle hs]
    refine ⟨_, getSerialNumber_runs hs hw, rfl, ?_, ?_⟩
    · simp [serialRead_trace, requestedUs_trGetSerialNumber hp, answers_length]
    · simp [serialRead_trace, requestedMs_trGetSerialNumber]
  case temperature =>
    have hlen : (rawBits k s).length = 16 := answers_length _ _
    rw [← atPhase_of_idle hs]
    refine ⟨_, getTemperature_runs hs hw ha, rfl, ?_, ?_⟩
    · simp [temperatureRead_trace, requestedUs_trGetTemperature hp, hlen]
    · simp [temperatureRead_trace, requestedMs_trGetTemperature]

end Sys2Proof.Machine

/-! ## Proofs: the host and the hardware reset (R221 to R236)

Of the host's moves only the hardware reset changes what a busy OWM does; of the operations it may ask
for, an unconfigured OWM accepts `INIT` alone. -/

namespace Sys2Proof.Machine

open Sys2Proof

/-! ### Before `INIT` (R225) -/

/-- An unconfigured OWM asks R89's question of the request, and no other. -/
theorem refusal_of_unconfigured {i : Instr} {s : State} (hi : i ≠ .init)
    (hc : s.configured = false) :
    i.refusal s = some
      (if i.isPublic = false ∧ s.params.exposeInternalOps = false then .notExposed
        else .notConfigured) := by
  simp only [Instr.refusal, if_neg hi, if_pos hc]
  split <;> rfl

/-- Settles O17: the refusal is `refusal_of_unconfigured`, and R89's question is not asked of a public
operation. -/
theorem unconfiguredRefused : Obligations.UnconfiguredRefused := by
  intro s i hidle hc hi
  have hr := refusal_of_unconfigured hi hc
  refine ⟨fun hpub => ?_, _, exec_refused hidle hr⟩
  exact exec_refused hidle (by simp [hr, hpub])

/-! ### The moves of the host (R232, R236) -/

/-- No instruction reads the host's moves. -/
theorem exec_withHost {i : Instr} {s t : State} (h : exec i s = .next t) (l : List HostMove) :
    exec i { s with host := l } = .next { t with host := l } := by
  cases hq : s.seq.decodes with
  | false =>
    obtain ⟨hsign, htemp⟩ := exec_keeps_sign_temp hq h
    refine (exec_withUnread (g := s.sign) (d := s.temp) (l := l) hq).trans ?_
    rw [h, mapNext, withUnread, ← hsign, ← htemp]
  | true =>
    refine (exec_withUnread_of_decodes (g := s.sign) (d := s.temp) (l := l) hq).trans ?_
    rw [h, mapNext]

/-- Settles O51: with either list of moves the step is that of the instruction in progress, which reads
none of them (`exec_withHost`). -/
theorem hostCannotDisturb : Obligations.HostCannotDisturb := by
  intro s t l hb hh hr h
  have hb : s.seq ≠ .idle := by simpa [State.busy] using hb
  obtain ⟨i, hi⟩ := Option.ne_none_iff_exists'.1 (mt (current_none_iff s).1 hb)
  have hw : s.HostWaits := (hostWaits_iff s).2 (.inl hh)
  have hexec : exec i s = .next t := (step_of_current hw hi).symm.trans h
  obtain ⟨l', hstep⟩ := step_eq_phaseStep_of_busy (s := { s with host := l }) hb hr
  have hphase := exec_of_mem_phases (s := { s with host := l' }) (mem_phases_of_current hi)
  exact ⟨l', hstep.trans (hphase.symm.trans (exec_withHost hexec l'))⟩

/-! ### The hardware reset (R221, R222) -/

/-- Settles O1: the registers are those of `State.reset`, and an idle OWM that is asked nothing waits. -/
theorem resetState : Obligations.ResetState :=
  ⟨rfl, rfl, rfl, rfl, rfl, rfl, rfl, rfl, rfl, rfl, rfl, step_of_settle rfl⟩

theorem step_hardReset {s : State} {l : List HostMove} (hh : s.host = .hardReset :: l) :
    step s = .next (hardwareReset { s with host := l }) :=
  step_of_settle (by simp [nextAction, hh])

/-- Settles O2: the step is the hardware reset at once, which asks `BUSY` only about the pin. -/
theorem hardResetAbandonsOperation : Obligations.HardResetAbandonsOperation := by
  intro s l hh
  exact ⟨_, _, step_hardReset hh, fun hb => ⟨if_pos hb, if_pos hb⟩⟩

end Sys2Proof.Machine
